-- ==== Sys2Proof/Word.lean ====
section
/-! DEFINITION. The plain bit-vector types of the machine (00_scope.md R5, R7): all values are unsigned. -/

namespace Sys2Proof

/-- An 8-bit value: a general register, a timer, a byte of the store (R5). -/
abbrev Byte := BitVec 8

/-- A 16-bit value: an instruction word, `pc`, `I`, a return address (R5). -/
abbrev Word := BitVec 16

/-- A 4-bit value: a register index `x` or `y`, the row count `n`, a key index (30_encoding.md R62, 10_state.md R32). -/
abbrev Nibble := BitVec 4

/-- A 12-bit address immediate `nnn` (30_encoding.md R62). -/
abbrev Addr12 := BitVec 12

end Sys2Proof
end

