-- ==== Sys2Proof/Syntax.lean ====
section
/-! DEFINITION. The instructions: one constructor per row of the opcode map (30_encoding.md R66), and the names
of the classes of words that are no instruction (R67). An operand has exactly the width of its field (R62), so
every term of `Instr` has operands that its encoding can hold. -/

namespace Sys2Proof

/-- The 34 instructions of R66, in the table's order. `x` and `y` are register indices, `kk` an immediate byte,
`n` a row count, `nnn` an address (R62, R63). -/
inductive Instr where
  /-- 00E0, CLS (R161) -/
  | cls
  /-- 00EE, RET (R101) -/
  | ret
  /-- 1nnn, JP nnn (R102) -/
  | jp (nnn : Addr12)
  /-- 2nnn, CALL nnn (R103) -/
  | call (nnn : Addr12)
  /-- 3xkk, SE Vx, kk (R104) -/
  | seVxKk (x : Nibble) (kk : Byte)
  /-- 4xkk, SNE Vx, kk (R105) -/
  | sneVxKk (x : Nibble) (kk : Byte)
  /-- 5xy0, SE Vx, Vy (R106) -/
  | seVxVy (x y : Nibble)
  /-- 6xkk, LD Vx, kk (R120) -/
  | ldVxKk (x : Nibble) (kk : Byte)
  /-- 7xkk, ADD Vx, kk (R121) -/
  | addVxKk (x : Nibble) (kk : Byte)
  /-- 8xy0, LD Vx, Vy (R122) -/
  | ldVxVy (x y : Nibble)
  /-- 8xy1, OR Vx, Vy (R123) -/
  | orVxVy (x y : Nibble)
  /-- 8xy2, AND Vx, Vy (R124) -/
  | andVxVy (x y : Nibble)
  /-- 8xy3, XOR Vx, Vy (R125) -/
  | xorVxVy (x y : Nibble)
  /-- 8xy4, ADD Vx, Vy (R126) -/
  | addVxVy (x y : Nibble)
  /-- 8xy5, SUB Vx, Vy (R127) -/
  | subVxVy (x y : Nibble)
  /-- 8xy6, SHR Vx (R128); `y` is in the word and selects nothing (R68) -/
  | shrVx (x y : Nibble)
  /-- 8xy7, SUBN Vx, Vy (R129) -/
  | subnVxVy (x y : Nibble)
  /-- 8xyE, SHL Vx (R130); `y` is in the word and selects nothing (R68) -/
  | shlVx (x y : Nibble)
  /-- 9xy0, SNE Vx, Vy (R107) -/
  | sneVxVy (x y : Nibble)
  /-- Annn, LD I, nnn (R140) -/
  | ldI (nnn : Addr12)
  /-- Bnnn, JP V0, nnn (R108) -/
  | jpV0 (nnn : Addr12)
  /-- Cxkk, RND Vx, kk (R131) -/
  | rnd (x : Nibble) (kk : Byte)
  /-- Dxyn, DRW Vx, Vy, n (R162) -/
  | drw (x y n : Nibble)
  /-- Ex9E, SKP Vx (R170) -/
  | skp (x : Nibble)
  /-- ExA1, SKNP Vx (R171) -/
  | sknp (x : Nibble)
  /-- Fx07, LD Vx, DT (R173) -/
  | ldVxDt (x : Nibble)
  /-- Fx0A, LD Vx, K (R172) -/
  | ldVxK (x : Nibble)
  /-- Fx15, LD DT, Vx (R174) -/
  | ldDtVx (x : Nibble)
  /-- Fx18, LD ST, Vx (R175) -/
  | ldStVx (x : Nibble)
  /-- Fx1E, ADD I, Vx (R141) -/
  | addIVx (x : Nibble)
  /-- Fx29, LD F, Vx (R142) -/
  | ldFVx (x : Nibble)
  /-- Fx33, LD B, Vx (R143) -/
  | ldBVx (x : Nibble)
  /-- Fx55, LD [I], Vx (R144) -/
  | ldMemVx (x : Nibble)
  /-- Fx65, LD Vx, [I] (R145) -/
  | ldVxMem (x : Nibble)
  deriving DecidableEq, Repr

/-- Why a word is no instruction: the six classes (a) to (f) of R67. All of them raise the one fault
UnimplementedInstruction (R202). -/
inductive IllegalWord where
  /-- (a) `0x0000` to `0x0FFF` except `0x00E0` and `0x00EE` -/
  | family0
  /-- (b) `5xyN` with `N` not 0 (R65) -/
  | family5
  /-- (c) `8xyN` with `N` in 8 to 0xD or 0xF -/
  | family8
  /-- (d) `9xyN` with `N` not 0 (R65) -/
  | family9
  /-- (e) `ExKK` with `KK` other than `0x9E` and `0xA1` -/
  | familyE
  /-- (f) `FxKK` with `KK` none of the nine low bytes of family 0xF -/
  | familyF
  deriving DecidableEq, Repr

end Sys2Proof
end

