-- ==== Sys2Proof/Decode.lean ====
section
/-! DEFINITION. The fields of an instruction word (30_encoding.md R62), the decoder (R64 to R69), total on every
word and rejecting by name, and after it the encoder, written from the formats of R61 and the patterns of R66. -/

namespace Sys2Proof

/-- The primary opcode `op[15:12]` (R62). -/
def primary (op : Word) : Nibble := op.extractLsb' 12 4

/-- `x = op[11:8]` (R62). -/
def fieldX (op : Word) : Nibble := op.extractLsb' 8 4

/-- `y = op[7:4]` (R62). -/
def fieldY (op : Word) : Nibble := op.extractLsb' 4 4

/-- `n = op[3:0]` (R62): a row count, or the secondary opcode of format XY. -/
def fieldN (op : Word) : Nibble := op.extractLsb' 0 4

/-- `kk = op[7:0]` (R62): an immediate byte, or the secondary opcode of format X. -/
def fieldKk (op : Word) : Byte := op.extractLsb' 0 8

/-- `nnn = op[11:0]` (R62). -/
def fieldNnn (op : Word) : Addr12 := op.extractLsb' 0 12

/-- `op[15:8]`, the byte at `pc` (R60, 20_memory.md R47). -/
def highByte (op : Word) : Byte := op.extractLsb' 8 8

/-- `op[7:0]`, the byte at `pc + 1` (R60, 20_memory.md R47). -/
def lowByte (op : Word) : Byte := op.extractLsb' 0 8

/-- The big-endian word of two bytes, the first at the lower address (20_memory.md R45, R47). -/
def wordOfBytes (hi lo : Byte) : Word := hi ++ lo

/-- Family 0x0 is matched on the whole word (R64). -/
def decodeFamily0 (op : Word) : Except IllegalWord Instr :=
  if op = 0x00E0 then .ok .cls
  else if op = 0x00EE then .ok .ret
  else .error .family0

/-- Family 0x5: the low nibble must be 0 (R64, R65). -/
def decodeFamily5 (op : Word) : Except IllegalWord Instr :=
  if fieldN op = 0 then .ok (.seVxVy (fieldX op) (fieldY op)) else .error .family5

/-- Family 0x8 is selected by the low nibble (R64). -/
def decodeFamily8 (op : Word) : Except IllegalWord Instr :=
  match fieldN op with
  | 0x0#4 => .ok (.ldVxVy (fieldX op) (fieldY op))
  | 0x1#4 => .ok (.orVxVy (fieldX op) (fieldY op))
  | 0x2#4 => .ok (.andVxVy (fieldX op) (fieldY op))
  | 0x3#4 => .ok (.xorVxVy (fieldX op) (fieldY op))
  | 0x4#4 => .ok (.addVxVy (fieldX op) (fieldY op))
  | 0x5#4 => .ok (.subVxVy (fieldX op) (fieldY op))
  | 0x6#4 => .ok (.shrVx (fieldX op) (fieldY op))
  | 0x7#4 => .ok (.subnVxVy (fieldX op) (fieldY op))
  | 0xE#4 => .ok (.shlVx (fieldX op) (fieldY op))
  | _ => .error .family8

/-- Family 0x9: the low nibble must be 0 (R64, R65). -/
def decodeFamily9 (op : Word) : Except IllegalWord Instr :=
  if fieldN op = 0 then .ok (.sneVxVy (fieldX op) (fieldY op)) else .error .family9

/-- Family 0xE is selected by the low byte (R64). -/
def decodeFamilyE (op : Word) : Except IllegalWord Instr :=
  match fieldKk op with
  | 0x9E#8 => .ok (.skp (fieldX op))
  | 0xA1#8 => .ok (.sknp (fieldX op))
  | _ => .error .familyE

/-- Family 0xF is selected by the low byte (R64). -/
def decodeFamilyF (op : Word) : Except IllegalWord Instr :=
  match fieldKk op with
  | 0x07#8 => .ok (.ldVxDt (fieldX op))
  | 0x0A#8 => .ok (.ldVxK (fieldX op))
  | 0x15#8 => .ok (.ldDtVx (fieldX op))
  | 0x18#8 => .ok (.ldStVx (fieldX op))
  | 0x1E#8 => .ok (.addIVx (fieldX op))
  | 0x29#8 => .ok (.ldFVx (fieldX op))
  | 0x33#8 => .ok (.ldBVx (fieldX op))
  | 0x55#8 => .ok (.ldMemVx (fieldX op))
  | 0x65#8 => .ok (.ldVxMem (fieldX op))
  | _ => .error .familyF

/-- Decode by the high nibble, then by the family's selector (R64). Total: every word is one of the 34
instructions or illegal (R69), and an illegal word is rejected under the name of its class (R67). -/
def decode (op : Word) : Except IllegalWord Instr :=
  match primary op with
  | 0x0#4 => decodeFamily0 op
  | 0x1#4 => .ok (.jp (fieldNnn op))
  | 0x2#4 => .ok (.call (fieldNnn op))
  | 0x3#4 => .ok (.seVxKk (fieldX op) (fieldKk op))
  | 0x4#4 => .ok (.sneVxKk (fieldX op) (fieldKk op))
  | 0x5#4 => decodeFamily5 op
  | 0x6#4 => .ok (.ldVxKk (fieldX op) (fieldKk op))
  | 0x7#4 => .ok (.addVxKk (fieldX op) (fieldKk op))
  | 0x8#4 => decodeFamily8 op
  | 0x9#4 => decodeFamily9 op
  | 0xA#4 => .ok (.ldI (fieldNnn op))
  | 0xB#4 => .ok (.jpV0 (fieldNnn op))
  | 0xC#4 => .ok (.rnd (fieldX op) (fieldKk op))
  | 0xD#4 => .ok (.drw (fieldX op) (fieldY op) (fieldN op))
  | 0xE#4 => decodeFamilyE op
  | _ => decodeFamilyF op

/-- The decoder on the two bytes of an instruction as the store holds them, the first at the lower address (R60). -/
def decodeBytes (hi lo : Byte) : Except IllegalWord Instr := decode (wordOfBytes hi lo)

/-- Format NNN (R61). -/
def formatNnn (p : Nibble) (nnn : Addr12) : Word := p ++ nnn

/-- Format XKK (R61). -/
def formatXkk (p x : Nibble) (kk : Byte) : Word := p ++ x ++ kk

/-- Formats XY and XYN (R61): the last nibble is the secondary opcode or `n`. -/
def formatXyn (p x y n : Nibble) : Word := p ++ x ++ y ++ n

/-- Format X (R61): the low byte is the secondary opcode. -/
def formatX (p x : Nibble) (secondary : Byte) : Word := p ++ x ++ secondary

/-- The word of an instruction, by the formats of R61 and the patterns of R66. -/
def encode : Instr → Word
  | .cls => 0x00E0
  | .ret => 0x00EE
  | .jp nnn => formatNnn 0x1 nnn
  | .call nnn => formatNnn 0x2 nnn
  | .seVxKk x kk => formatXkk 0x3 x kk
  | .sneVxKk x kk => formatXkk 0x4 x kk
  | .seVxVy x y => formatXyn 0x5 x y 0x0
  | .ldVxKk x kk => formatXkk 0x6 x kk
  | .addVxKk x kk => formatXkk 0x7 x kk
  | .ldVxVy x y => formatXyn 0x8 x y 0x0
  | .orVxVy x y => formatXyn 0x8 x y 0x1
  | .andVxVy x y => formatXyn 0x8 x y 0x2
  | .xorVxVy x y => formatXyn 0x8 x y 0x3
  | .addVxVy x y => formatXyn 0x8 x y 0x4
  | .subVxVy x y => formatXyn 0x8 x y 0x5
  | .shrVx x y => formatXyn 0x8 x y 0x6
  | .subnVxVy x y => formatXyn 0x8 x y 0x7
  | .shlVx x y => formatXyn 0x8 x y 0xE
  | .sneVxVy x y => formatXyn 0x9 x y 0x0
  | .ldI nnn => formatNnn 0xA nnn
  | .jpV0 nnn => formatNnn 0xB nnn
  | .rnd x kk => formatXkk 0xC x kk
  | .drw x y n => formatXyn 0xD x y n
  | .skp x => formatX 0xE x 0x9E
  | .sknp x => formatX 0xE x 0xA1
  | .ldVxDt x => formatX 0xF x 0x07
  | .ldVxK x => formatX 0xF x 0x0A
  | .ldDtVx x => formatX 0xF x 0x15
  | .ldStVx x => formatX 0xF x 0x18
  | .addIVx x => formatX 0xF x 0x1E
  | .ldFVx x => formatX 0xF x 0x29
  | .ldBVx x => formatX 0xF x 0x33
  | .ldMemVx x => formatX 0xF x 0x55
  | .ldVxMem x => formatX 0xF x 0x65

/-- The instruction that the decoder reads from an instruction whose bits are `w`, numbered as
spec/opcode_table.json numbers them; the bits from `nbits` up are 0. The word is laid out big-endian and its two
bytes are given to the decoder (R60, R47). -/
def decodeTableWord (nbits w : Nat) : Option Instr :=
  let op : Word := BitVec.ofNat 16 (w % 2 ^ nbits)
  match decodeBytes (highByte op) (lowByte op) with
  | .ok i => some i
  | .error _ => none

end Sys2Proof
end

