-- ==== Sys2Proof/Config.lean ====
section
/-! DEFINITION. The sizes that the spec fixes (00_scope.md R5) and the two parameters it leaves open
(00_scope.md R6): the font table and the random bytes. The two are OPAQUE: nothing can evaluate them or
prove a value of them, so whatever is proved holds for every font table and every sequence of random bytes. -/

namespace Sys2Proof.Config

/-- `MEM_SIZE` (R5). -/
def memSize : Nat := 4096

/-- `PROG_BASE` (R5). -/
def progBase : Nat := 512

/-- `PROG_MAX` = 4096 - 512 (R5). -/
def progMax : Nat := 3584

/-- The length of the font table, 16 glyphs of 5 bytes (R5, 20_memory.md R49). -/
def fontLength : Nat := 80

/-- `STACK_DEPTH` (R5). -/
def stackDepth : Nat := 16

/-- `FB_W` (R5, 44_display.md R160). -/
def fbWidth : Nat := 64

/-- `FB_H` (R5, 44_display.md R160). -/
def fbHeight : Nat := 32

/-- `FONT_TABLE`, the open parameter of R6 (20_memory.md R49, decision D15, U7): 80 bytes of which the spec
fixes the number and never the values. A free value (log entry 2). -/
opaque fontTable : Vector Byte 80

/-- The random bytes that nobody has named: `freeRand n` is the byte on the `rand` port at the n-th sampled step
(10_state.md R31, decision D16, U8: "a free draw"). A free value (log entry 1). -/
opaque freeRand : Nat → Byte

/-- The table that 20_memory.md R49 recommends and marks as general knowledge, not in the source. The machine
does not use it: a claim about particular glyphs takes `fontTable = recommendedFontTable` as a premise. -/
def recommendedFontTable : Vector Byte 80 :=
  #v[0xF0, 0x90, 0x90, 0x90, 0xF0,  0x20, 0x60, 0x20, 0x20, 0x70,
     0xF0, 0x10, 0xF0, 0x80, 0xF0,  0xF0, 0x10, 0xF0, 0x10, 0xF0,
     0x90, 0x90, 0xF0, 0x10, 0x10,  0xF0, 0x80, 0xF0, 0x10, 0xF0,
     0xF0, 0x80, 0xF0, 0x90, 0xF0,  0xF0, 0x10, 0x20, 0x40, 0x40,
     0xF0, 0x90, 0xF0, 0x90, 0xF0,  0xF0, 0x90, 0xF0, 0x10, 0xF0,
     0xF0, 0x90, 0xF0, 0x90, 0x90,  0xE0, 0x90, 0xE0, 0x90, 0xE0,
     0xF0, 0x80, 0x80, 0x80, 0xF0,  0xE0, 0x90, 0x90, 0x90, 0xE0,
     0xF0, 0x80, 0xF0, 0x80, 0xF0,  0xF0, 0x80, 0xF0, 0x80, 0x80]

end Sys2Proof.Config
end

