-- ==== Sys2Proof/Machine/State.lean ====
section
/-! DEFINITION. All the state that the spec gives the CORE (10_state.md), as plain data; the outcomes other than a
next state; and the state after reset (70_reset_and_hazards.md R230). -/

namespace Sys2Proof.Machine

/-- `STATUS`: RUNNING (0) or FAULTED (1) (10_state.md R21). -/
inductive Status where
  | running
  | faulted
  deriving DecidableEq, Repr

/-- `FAULT_KIND`: the fault kinds of 60_exceptions.md R200; `none` is code 0. -/
inductive FaultKind where
  /-- code 0, no fault -/
  | none
  /-- code 1, an effective address of 4096 or more (R201) -/
  | outOfBounds
  /-- code 2, the word matches no opcode pattern (R202) -/
  | unimplementedInstruction
  /-- code 3, 2nnn with `SP = 16` (R203) -/
  | stackOverflow
  /-- code 4, 00EE with `SP = 0` (R204) -/
  | stackUnderflow
  /-- code 5, Ex9E or ExA1 with `V[x] > 15` (R205) -/
  | keyIndexOutOfRange
  deriving DecidableEq, Repr

/-- The fault record `FAULT_KIND`, `FAULT_PC`, `FAULT_OP`, `FAULT_ADDR` (10_state.md R22). -/
structure FaultRecord where
  kind : FaultKind
  pc : Word
  op : Word
  addr : BitVec 17
  deriving DecidableEq, Repr

/-- The `rand` input port (10_state.md R31), the MODEL's own bookkeeping and no state of the CORE (log entry 1):
`given` lists the bytes that the host has already named for the coming steps, the next one first, and `drawn`
counts the sampled steps. Where no byte is named, the byte is the free value `Config.freeRand drawn`. -/
structure RandPort where
  given : List Byte
  drawn : Nat
  deriving DecidableEq, Repr

/-- The store `MEM[0..4095]` (20_memory.md R40): the bytes that differ from what an unlisted address reads as
(Machine/Memory.lean), at strictly rising addresses. -/
abbrev Memory := List Host.Cell

/-- The framebuffer `FB[0..2047]` (10_state.md R26): 32 rows, top row first, of 64 one-bit pixels; the pixel of
column `cx` is bit `cx` of its row (log entry 8). -/
abbrev Framebuffer := Vector (BitVec 64) 32

/-- The state of the CORE: one field per row of the table of 10_state.md §1, and the `rand` port. -/
structure State where
  /-- `V[0..15]` (R10) -/
  v : Vector Byte 16
  /-- `I` (R23) -/
  index : Word
  /-- `pc` (R13) -/
  pc : Word
  /-- `STACK[0..15]` (R24) -/
  stack : Vector Word 16
  /-- `SP`, the depth, 0 to 16 (R20) -/
  sp : Fin 17
  /-- `DT` (R18) -/
  dt : Byte
  /-- `ST` (R19) -/
  st : Byte
  /-- `KEY[0..15]` (R25) -/
  key : Vector Bool 16
  /-- `FB[0..2047]` (R26) -/
  fb : Framebuffer
  /-- `MEM[0..4095]` (R27, R40) -/
  mem : Memory
  /-- `STATUS` (R21) -/
  status : Status
  /-- the fault record (R22) -/
  faultRec : FaultRecord
  /-- `TONE` (R29) -/
  tone : Bool
  /-- the `rand` port (R31), the model's own field -/
  randPort : RandPort
  deriving DecidableEq, Repr

/-- Why the model stops with a fault: NEVER. Every fault the spec describes is taken as its fault entry
(60_exceptions.md R207) and ends in a NEXT state with `STATUS = FAULTED`, and a step of that state is a no-op
(40_step_cycle.md R81), so this type has no constructor: nothing can raise one (safe; log entry 3). -/
inductive Fault
  deriving DecidableEq, Repr

/-- Why the model refuses. -/
inductive Refusal where
  /-- An arm of `exec` that has no meaning yet. No arm raises it: every instruction has its meaning (safe). -/
  | notModelled (mnemonic : String)
  deriving DecidableEq, Repr

/-- What a meaning or a step answers. -/
abbrev Result := Host.Outcome State Fault Refusal

/-- The state after reset, every row of the table of 70_reset_and_hazards.md R230: `MEM` lists nothing, so every
address reads as its reset contents. The `rand` port, the model's own, names no byte and has drawn none. -/
def State.reset : State where
  v := Vector.replicate 16 0
  index := 0
  pc := 512
  stack := Vector.replicate 16 0
  sp := 0
  dt := 0
  st := 0
  key := Vector.replicate 16 false
  fb := Vector.replicate 32 0
  mem := []
  status := .running
  faultRec := ⟨.none, 0, 0, 0⟩
  tone := false
  randPort := ⟨[], 0⟩

end Sys2Proof.Machine
end

