-- ==== Sys2Proof/Machine/Memory.lean ====
section
/-! DEFINITION. The Addressable Memory Unit: what the store holds and the checked accesses to it (20_memory.md).
Every access of the CORE goes through `loadByte`, `loadWord`, `loadBytes` or `storeBytes`, which check the bounds of
R43 to R45 first; `Memory.get` and `Memory.put` are the unchecked contents. -/

namespace Sys2Proof.Machine

/-- What an unlisted address reads as: the contents after the Memory Unit's `reset()`, `FONT_TABLE[a]` for `a` in
0 to 79 and 0 above (R50). -/
def Memory.unlisted (a : Nat) : Byte :=
  if h : a < 80 then Config.fontTable[a] else 0

/-- `MEM[a]`. -/
def Memory.get : Memory → Nat → Byte
  | [], a => Memory.unlisted a
  | (b, w) :: rest, a => if a = b then w else Memory.get rest a

/-- List `v` at address `a` in front of `rest`, or nothing where `v` is what the address reads as unlisted. -/
def Memory.listed (a : Nat) (v : Byte) (rest : Memory) : Memory :=
  if v = Memory.unlisted a then rest else (a, v) :: rest

/-- `MEM[a] <- v`, keeping the canonical form. -/
def Memory.put : Memory → Nat → Byte → Memory
  | [], a, v => Memory.listed a v []
  | (b, w) :: rest, a, v =>
    if a < b then Memory.listed a v ((b, w) :: rest)
    else if a = b then Memory.listed a v rest
    else (b, w) :: Memory.put rest a v

/-- The canonical form: addresses inside the store and strictly rising, and no entry equal to what its address
reads as unlisted. Equal stores are then equal lists. -/
abbrev Memory.wf (m : Memory) : Prop :=
  m.Pairwise (fun c d => c.1 < d.1) ∧ ∀ c ∈ m, c.1 < Config.memSize ∧ c.2 ≠ Memory.unlisted c.1

/-- The lowest out-of-range address among the `count` bytes from `start`, if there is one: an access raises
OutOfBounds exactly when `count > 0` and `start + count - 1 >= 4096`, and reports `max(start, 4096)`
(R43 to R45, R143 to R145, R162, 60_exceptions.md R201). Addresses are not truncated first (R52). -/
def firstOutside (start count : Nat) : Option Nat :=
  if 0 < count ∧ Config.memSize ≤ start + count - 1 then some (max start Config.memSize) else none

/-- The bytes at `a`, `a + 1`, … (`count` of them), ascending. -/
def Memory.getMany (m : Memory) (a : Nat) : Nat → List Byte
  | 0 => []
  | count + 1 => m.get a :: m.getMany (a + 1) count

/-- Write the bytes at `a`, `a + 1`, …, ascending. -/
def Memory.putMany (m : Memory) (a : Nat) : List Byte → Memory
  | [] => m
  | v :: vs => (m.put a v).putMany (a + 1) vs

/-- `MemRead` of `count` single bytes from `a` on (R43, R46); an error is the address of the OutOfBounds raised. -/
def loadBytes (m : Memory) (a count : Nat) : Except Nat (List Byte) :=
  match firstOutside a count with
  | some bad => .error bad
  | none => .ok (m.getMany a count)

/-- `MemWrite` of single bytes from `a` on (R44): every address is checked before the first write, and nothing is
written when one is out of range. -/
def storeBytes (m : Memory) (a : Nat) (vs : List Byte) : Except Nat Memory :=
  match firstOutside a vs.length with
  | some bad => .error bad
  | none => .ok (m.putMany a vs)

/-- `MemRead(addr, 1)` (R43). -/
def loadByte (m : Memory) (a : Nat) : Except Nat Byte :=
  match firstOutside a 1 with
  | some bad => .error bad
  | none => .ok (m.get a)

/-- `MemWrite(addr, 1, v)` (R44). -/
def storeByte (m : Memory) (a : Nat) (v : Byte) : Except Nat Memory := storeBytes m a [v]

/-- `MemRead(addr, 2)`, the instruction fetch, big-endian (R45, R47). -/
def loadWord (m : Memory) (a : Nat) : Except Nat Word :=
  match firstOutside a 2 with
  | some bad => .error bad
  | none => .ok (m.get a ++ m.get (a + 1))

end Sys2Proof.Machine
end

