-- ==== Sys2Proof/Machine/Ops.lean ====
section
/-! DEFINITION. The named operations over the state: registers, program counter, call stack, framebuffer, the `rand`
port; taking a fault as ONE operation and the only way out of it; the fetch; the timer tick; the step cycle around
the execution of an instruction (40_step_cycle.md R80 to R90). -/

namespace Sys2Proof.Machine

/-! ### Registers and program counter -/

/-- `V[i]` (00_scope.md R8, 10_state.md R10). -/
def State.readV (s : State) (r : Nibble) : Byte := s.v[r.toNat]

/-- `V[i] <- b` (R8, R10). -/
def State.writeV (s : State) (r : Nibble) (b : Byte) : State := { s with v := s.v.set r.toNat b }

/-- `V[k] <- b` for the listed bytes, ascending from register `k` (43_index_memory.md R145). -/
def State.writeFrom (s : State) (k : Nat) : List Byte → State
  | [] => s
  | b :: bs => (s.writeV (BitVec.ofNat 4 k) b).writeFrom (k + 1) bs

/-- `pc <- target` (R8, R14). -/
def State.setPc (s : State) (target : Word) : State := { s with pc := target }

/-- Advance: `pc <- pc + 2` (R14). -/
abbrev State.advance (s : State) : State := s.setPc (s.pc + 2)

/-- Skip: `pc <- pc + 4` when the condition holds, else advance (R14, R86). -/
abbrev State.skipIf (s : State) (c : Bool) : State := s.setPc (if c then s.pc + 4 else s.pc + 2)

/-- `I <- w` (10_state.md R23). -/
def State.setIndex (s : State) (w : Word) : State := { s with index := w }

/-- `DT <- b` (R18). -/
def State.setDt (s : State) (b : Byte) : State := { s with dt := b }

/-- `ST <- b` (R19). -/
def State.setSt (s : State) (b : Byte) : State := { s with st := b }

/-- The store becomes `m`. -/
def State.setMem (s : State) (m : Memory) : State := { s with mem := m }

/-- The framebuffer becomes `fb`. -/
def State.setFb (s : State) (fb : Framebuffer) : State := { s with fb := fb }

/-! ### Call stack (R20, R24) -/

/-- `STACK[SP] <- pc; SP <- SP + 1`, or nothing to answer when `SP = 16` (41_control_flow.md R103). -/
def State.pushPc (s : State) : Option State :=
  if h : s.sp.val < 16 then
    some { s with stack := s.stack.set s.sp.val s.pc, sp := ⟨s.sp.val + 1, by omega⟩ }
  else none

/-- `SP <- SP - 1` and the entry `STACK[SP]` then on top, or nothing to answer when `SP = 0` (R101). The popped slot
keeps its value (decision D27). -/
def State.pop (s : State) : Option (Word × State) :=
  if h : 0 < s.sp.val then
    some (s.stack[s.sp.val - 1], { s with sp := ⟨s.sp.val - 1, by omega⟩ })
  else none

/-! ### Framebuffer (R26, 44_display.md R160) -/

/-- `FB[p]`, with `p = cy * 64 + cx`: bit `cx` of row `cy`. There is no pixel from 2048 up. -/
def Framebuffer.pixel (fb : Framebuffer) (p : Nat) : Bool :=
  if h : p < 2048 then fb[p / 64].getLsbD (p % 64) else false

/-- `FB[p] <- FB[p] ^ 1` (R162). -/
def Framebuffer.toggle (fb : Framebuffer) (p : Nat) : Framebuffer :=
  if h : p < 2048 then fb.set (p / 64) (fb[p / 64] ^^^ (1#64 <<< (p % 64))) else fb

/-- All pixels 0 (R161). -/
def Framebuffer.clear : Framebuffer := Vector.replicate 32 0

/-! ### The `rand` port (R31) -/

/-- The byte that this step samples: the one the host has named, else a free value (decision D16). -/
def RandPort.current (p : RandPort) : Byte :=
  match p.given with
  | [] => Config.freeRand p.drawn
  | b :: _ => b

/-- The port after a step has sampled it: the next step sees another byte. -/
def RandPort.sampled (p : RandPort) : RandPort := ⟨p.given.tail, p.drawn + 1⟩

/-! ### Taking a fault, and the way out (60_exceptions.md R207, R208) -/

/-- Fault entry (R207): `STATUS <- FAULTED`, the record is written, `TONE <- 0`, and nothing else changes. It is given
the state before the instruction, so whatever the instruction had done is discarded. -/
def State.takeFault (s : State) (kind : FaultKind) (op : Word) (info : Nat) : State :=
  { s with
    status := .faulted
    faultRec := ⟨kind, s.pc, op, BitVec.ofNat 17 info⟩
    tone := false }

/-- An instruction raises a fault: fault entry with the instruction's own word as `FAULT_OP` (log entry 4). -/
def State.raise (s : State) (kind : FaultKind) (i : Instr) (info : Nat) : Result :=
  .next (s.takeFault kind (encode i) info)

/-- The way out of a fault: there is no return (R208), only the `reset` transaction (70_reset_and_hazards.md R230).
All of the CORE's state is as after reset; the `rand` port is the host's and stays (log entry 6). -/
def State.resetPort (s : State) : State := { State.reset with randPort := s.randPort }

/-! ### The step cycle (40_step_cycle.md R80) -/

/-- `x - 1` where `x` is not 0, else 0 (R85). -/
def countDown (b : Byte) : Byte := if b = 0 then 0 else b - 1

/-- The timer tick (R85): `TONE` is 1 when `ST` was exactly 1 before the decrement. -/
def State.tick (s : State) : State :=
  { s with dt := countDown s.dt, tone := decide (s.st = 1), st := countDown s.st }

/-- The end of a step that began RUNNING: the tick, unless the step has faulted (R80, R207), and the `rand` port has
been sampled. -/
def State.endStep (s : State) : State :=
  match s.status with
  | .running => { s.tick with randPort := s.randPort.sampled }
  | .faulted => { s with randPort := s.randPort.sampled }

/-- The end of a step after an instruction's meaning. -/
def finish : Result → Result
  | .next t => .next t.endStep
  | .fault r => .fault r
  | .refused r => .refused r

/-- Fetch and decode (R82, R83): the instruction, or the state of the fault entry. A fetch fault records `FAULT_OP = 0`
(R207); a word that is no instruction raises UnimplementedInstruction (30_encoding.md R67). -/
def State.fetchInstr (s : State) : Except State Instr :=
  match loadWord s.mem s.pc.toNat with
  | .error bad => .error (s.takeFault .outOfBounds 0 bad)
  | .ok op =>
    match decode op with
    | .error _ => .error (s.takeFault .unimplementedInstruction op 0)
    | .ok i => .ok i

/-- One step (R80), given how an instruction executes: a FAULTED machine does nothing (R81); else fetch, decode,
execute, tick. -/
def stepCycle (execute : Instr → State → Result) (s : State) : Result :=
  match s.status with
  | .faulted => .next s
  | .running =>
    match s.fetchInstr with
    | .error t => .next t.endStep
    | .ok i => finish (execute i s)

/-- `s` with the word `op` in the store where the next fetch reads it, high byte first (R47); unchanged where no fetch
can read (`pc >= 4095`). -/
def State.placeWord (s : State) (op : Word) : State :=
  match storeBytes s.mem s.pc.toNat [highByte op, lowByte op] with
  | .error _ => s
  | .ok m => s.setMem m

end Sys2Proof.Machine
end

