-- ==== Sys2Proof/Machine/Operands.lean ====
section
/-! DEFINITION. What instructions take their operands from (30_encoding.md R63, 43_index_memory.md R146): registers by
their 4-bit fields, immediates as they stand, the implicit operands, and the effective addresses. Plain register
operands are `State.readV` and `State.writeV` (Ops.lean). -/

namespace Sys2Proof.Machine

/-- VF, register 15 (10_state.md R11). -/
abbrev regF : Nibble := 15

/-- V0, the implicit operand of Bnnn (R63). -/
abbrev reg0 : Nibble := 0

/-- `zext_16(nnn)` (00_scope.md R7, R63). -/
def addrOperand (nnn : Addr12) : Word := nnn.setWidth 16

/-- `zext_16(b)` of a register value (R7). -/
def byteAsWord (b : Byte) : Word := b.setWidth 16

/-- The effective address `I` of Dxyn, Fx33, Fx55 and Fx65, an unbounded number (20_memory.md R52); the k-th byte is at
`I + k`. -/
def State.indexAddr (s : State) : Nat := s.index.toNat

/-- How many registers V0 to Vx are: `x + 1` (R144, R145). -/
def regCount (x : Nibble) : Nat := x.toNat + 1

/-- The values of V0 to Vx, ascending (R144). -/
def State.firstRegs (s : State) (x : Nibble) : List Byte :=
  (List.range (regCount x)).map fun k => s.readV (BitVec.ofNat 4 k)

/-- The decimal digits of a byte, hundreds first (R143). -/
def decimalDigits (b : Byte) : List Byte :=
  [BitVec.ofNat 8 (b.toNat / 100), BitVec.ofNat 8 (b.toNat / 10 % 10), BitVec.ofNat 8 (b.toNat % 10)]

/-- The address of the glyph of a digit, `zext_16(b) * 5` (R142, 20_memory.md R49). -/
def glyphAddr (b : Byte) : Word := byteAsWord b * 5

/-- The key that a register value names, or the offending index when it is above 15 (45_input_timers.md R170). -/
def keyIndex (b : Byte) : Except Nat Nibble :=
  if b.toNat > 15 then .error b.toNat else .ok (BitVec.ofNat 4 b.toNat)

/-- `KEY[k]` (10_state.md R25). -/
def State.keyDown (s : State) (k : Nibble) : Bool := s.key[k.toNat]

/-- The least pressed key, by an ascending scan (R172, decision D13). -/
def State.firstKeyDown (s : State) : Option Nat :=
  (List.range 16).find? fun k => s.keyDown (BitVec.ofNat 4 k)

end Sys2Proof.Machine
end

