-- ==== Sys2Proof/Machine/ControlFlow.lean ====
section
/-! DEFINITION. The control-flow instructions (41_control_flow.md). A target is not checked at the jump (R100). -/

namespace Sys2Proof.Machine

/-- 00EE, RET (R101). -/
def execRet (s : State) : Result :=
  match s.pop with
  | none => s.raise .stackUnderflow .ret 0
  | some (top, t) => .next (t.setPc (top + 2))

/-- 1nnn, JP nnn (R102). -/
def execJp (nnn : Addr12) (s : State) : Result := .next (s.setPc (addrOperand nnn))

/-- 2nnn, CALL nnn (R103): the address pushed is that of the CALL itself. -/
def execCall (nnn : Addr12) (s : State) : Result :=
  match s.pushPc with
  | none => s.raise .stackOverflow (.call nnn) 0
  | some t => .next (t.setPc (addrOperand nnn))

/-- 3xkk, SE Vx, kk (R104). -/
def execSeVxKk (x : Nibble) (kk : Byte) (s : State) : Result := .next (s.skipIf (s.readV x == kk))

/-- 4xkk, SNE Vx, kk (R105). -/
def execSneVxKk (x : Nibble) (kk : Byte) (s : State) : Result := .next (s.skipIf (s.readV x != kk))

/-- 5xy0, SE Vx, Vy (R106). -/
def execSeVxVy (x y : Nibble) (s : State) : Result := .next (s.skipIf (s.readV x == s.readV y))

/-- 9xy0, SNE Vx, Vy (R107). -/
def execSneVxVy (x y : Nibble) (s : State) : Result := .next (s.skipIf (s.readV x != s.readV y))

/-- Bnnn, JP V0, nnn (R108): the sum is not reduced to 12 bits. -/
def execJpV0 (nnn : Addr12) (s : State) : Result :=
  .next (s.setPc (addrOperand nnn + byteAsWord (s.readV reg0)))

end Sys2Proof.Machine
end

