-- ==== Sys2Proof/Machine/Flags.lean ====
section
/-! DEFINITION. The flag values that instructions write to VF: exactly 0 or 1 (10_state.md R16). -/

namespace Sys2Proof.Machine

/-- A flag as a register value (R16). -/
def flagByte (c : Bool) : Byte := if c then 1 else 0

/-- The carry out of `a + b`: bit 8 of the 9-bit sum (42_load_alu.md R126, R132). -/
def carryFlag (a b : Byte) : Byte := flagByte (decide (a.toNat + b.toNat > 255))

/-- 1 exactly when `a` is strictly greater than `b`, unsigned (R127, R129). -/
def greaterFlag (a b : Byte) : Byte := flagByte (decide (a.toNat > b.toNat))

/-- Bit 0, the bit that a right shift puts out (R128). -/
def lowBitFlag (a : Byte) : Byte := flagByte (a.getLsbD 0)

/-- Bit 7, the bit that a left shift puts out (R130). -/
def highBitFlag (a : Byte) : Byte := flagByte (a.getLsbD 7)

end Sys2Proof.Machine
end

