-- ==== Sys2Proof/Machine/Display.lean ====
section
/-! DEFINITION. The display instructions (44_display.md). -/

namespace Sys2Proof.Machine

/-- 00E0, CLS (R161). -/
def execCls (s : State) : Result := .next (s.setFb Framebuffer.clear).advance

/-- The drawing so far: the framebuffer and the collision flag (R162). -/
structure Drawing where
  fb : Framebuffer
  collision : Bool
  deriving DecidableEq, Repr

/-- A set sprite bit at pixel `p`: a collision where the pixel is 1, and the pixel is toggled (R162). -/
def drawPixel (p : Nat) (d : Drawing) : Drawing :=
  ⟨d.fb.toggle p, d.collision || d.fb.pixel p⟩

/-- The pixel of column offset `col` in the row `cy`: `cy * 64 + (px + col) mod 64` (R162, R163 (c)). -/
def pixelIndex (px cy col : Nat) : Nat := cy * 64 + (px + col) % 64

/-- The columns `col` of one sprite row `b`: bit 7 is the leftmost pixel (R162, R163 (f)). -/
def drawColumns (px cy : Nat) (b : Byte) : List Nat → Drawing → Drawing
  | [], d => d
  | col :: cols, d =>
    drawColumns px cy b cols (if b.getLsbD (7 - col) then drawPixel (pixelIndex px cy col) d else d)

/-- The rows of a sprite from row `row` on, each at `cy = (py + row) mod 32` (R162, R163 (d)). -/
def drawRows (px py : Nat) : Nat → List Byte → Drawing → Drawing
  | _, [], d => d
  | row, b :: bs, d => drawRows px py (row + 1) bs (drawColumns px ((py + row) % 32) b (List.range 8) d)

/-- Dxyn, DRW Vx, Vy, n (R162): `V[x]` and `V[y]` are latched; VF is written once, last. -/
def execDrw (x y n : Nibble) (s : State) : Result :=
  match loadBytes s.mem s.indexAddr n.toNat with
  | .error bad => s.raise .outOfBounds (.drw x y n) bad
  | .ok rows =>
    let d := drawRows (s.readV x).toNat (s.readV y).toNat 0 rows ⟨s.fb, false⟩
    .next ((s.setFb d.fb).writeV regF (flagByte d.collision)).advance

end Sys2Proof.Machine
end

