-- ==== Sys2Proof/Machine/IndexMemory.lean ====
section
/-! DEFINITION. Index-register and memory instructions (43_index_memory.md). None changes `I` but the three that
load or add to it (R146). -/

namespace Sys2Proof.Machine

/-- Annn, LD I, nnn (R140). -/
def execLdI (nnn : Addr12) (s : State) : Result := .next (s.setIndex (addrOperand nnn)).advance

/-- Fx1E, ADD I, Vx (R141): wraps modulo 65536, no flag. -/
def execAddIVx (x : Nibble) (s : State) : Result :=
  .next (s.setIndex (s.index + byteAsWord (s.readV x))).advance

/-- Fx29, LD F, Vx (R142): `V[x]` is not masked. -/
def execLdFVx (x : Nibble) (s : State) : Result := .next (s.setIndex (glyphAddr (s.readV x))).advance

/-- Fx33, LD B, Vx (R143). -/
def execLdBVx (x : Nibble) (s : State) : Result :=
  match storeBytes s.mem s.indexAddr (decimalDigits (s.readV x)) with
  | .error bad => s.raise .outOfBounds (.ldBVx x) bad
  | .ok m => .next (s.setMem m).advance

/-- Fx55, LD [I], Vx (R144). -/
def execLdMemVx (x : Nibble) (s : State) : Result :=
  match storeBytes s.mem s.indexAddr (s.firstRegs x) with
  | .error bad => s.raise .outOfBounds (.ldMemVx x) bad
  | .ok m => .next (s.setMem m).advance

/-- Fx65, LD Vx, [I] (R145). -/
def execLdVxMem (x : Nibble) (s : State) : Result :=
  match loadBytes s.mem s.indexAddr (regCount x) with
  | .error bad => s.raise .outOfBounds (.ldVxMem x) bad
  | .ok bs => .next (s.writeFrom 0 bs).advance

end Sys2Proof.Machine
end

