-- ==== Sys2Proof/Machine/InputTimers.lean ====
section
/-! DEFINITION. Input and timer instructions (45_input_timers.md). The tick of the same step follows in the step. -/

namespace Sys2Proof.Machine

/-- Ex9E, SKP Vx (R170). -/
def execSkp (x : Nibble) (s : State) : Result :=
  match keyIndex (s.readV x) with
  | .error k => s.raise .keyIndexOutOfRange (.skp x) k
  | .ok k => .next (s.skipIf (s.keyDown k))

/-- ExA1, SKNP Vx (R171). -/
def execSknp (x : Nibble) (s : State) : Result :=
  match keyIndex (s.readV x) with
  | .error k => s.raise .keyIndexOutOfRange (.sknp x) k
  | .ok k => .next (s.skipIf (!s.keyDown k))

/-- Fx0A, LD Vx, K (R172): while no key is down nothing is written and `pc` stays. -/
def execLdVxK (x : Nibble) (s : State) : Result :=
  match s.firstKeyDown with
  | none => .next s
  | some k => .next (s.writeV x (BitVec.ofNat 8 k)).advance

/-- Fx07, LD Vx, DT (R173). -/
def execLdVxDt (x : Nibble) (s : State) : Result := .next (s.writeV x s.dt).advance

/-- Fx15, LD DT, Vx (R174). -/
def execLdDtVx (x : Nibble) (s : State) : Result := .next (s.setDt (s.readV x)).advance

/-- Fx18, LD ST, Vx (R175). -/
def execLdStVx (x : Nibble) (s : State) : Result := .next (s.setSt (s.readV x)).advance

end Sys2Proof.Machine
end

