-- ==== Sys2Proof/Machine/LoadAlu.lean ====
section
/-! DEFINITION. Register load, arithmetic and logic (42_load_alu.md). The two writes of 8xy4 to 8xyE happen in the order
that the rule gives them, on the live registers, which matters when `x` or `y` is 15 (R133, decision D10). -/

namespace Sys2Proof.Machine

/-- 6xkk, LD Vx, kk (R120). -/
def execLdVxKk (x : Nibble) (kk : Byte) (s : State) : Result := .next (s.writeV x kk).advance

/-- 7xkk, ADD Vx, kk (R121): no flag. -/
def execAddVxKk (x : Nibble) (kk : Byte) (s : State) : Result := .next (s.writeV x (s.readV x + kk)).advance

/-- 8xy0, LD Vx, Vy (R122). -/
def execLdVxVy (x y : Nibble) (s : State) : Result := .next (s.writeV x (s.readV y)).advance

/-- 8xy1, OR Vx, Vy (R123): no flag. -/
def execOrVxVy (x y : Nibble) (s : State) : Result := .next (s.writeV x (s.readV x ||| s.readV y)).advance

/-- 8xy2, AND Vx, Vy (R124): no flag. -/
def execAndVxVy (x y : Nibble) (s : State) : Result := .next (s.writeV x (s.readV x &&& s.readV y)).advance

/-- 8xy3, XOR Vx, Vy (R125): no flag. -/
def execXorVxVy (x y : Nibble) (s : State) : Result := .next (s.writeV x (s.readV x ^^^ s.readV y)).advance

/-- 8xy4, ADD Vx, Vy (R126): the sum is computed once; the result is written first, the carry last. -/
def execAddVxVy (x y : Nibble) (s : State) : Result :=
  .next ((s.writeV x (s.readV x + s.readV y)).writeV regF (carryFlag (s.readV x) (s.readV y))).advance

/-- 8xy5, SUB Vx, Vy (R127): the flag first; the difference reads the registers after it. -/
def execSubVxVy (x y : Nibble) (s : State) : Result :=
  let t := s.writeV regF (greaterFlag (s.readV x) (s.readV y))
  .next (t.writeV x (t.readV x - t.readV y)).advance

/-- 8xy6, SHR Vx (R128): the flag first; `y` is neither read nor written (R68). -/
def execShrVx (x _y : Nibble) (s : State) : Result :=
  let t := s.writeV regF (lowBitFlag (s.readV x))
  .next (t.writeV x (t.readV x >>> 1)).advance

/-- 8xy7, SUBN Vx, Vy (R129): the flag first; the difference reads the registers after it. -/
def execSubnVxVy (x y : Nibble) (s : State) : Result :=
  let t := s.writeV regF (greaterFlag (s.readV y) (s.readV x))
  .next (t.writeV x (t.readV y - t.readV x)).advance

/-- 8xyE, SHL Vx (R130): the flag first; `y` is neither read nor written (R68). -/
def execShlVx (x _y : Nibble) (s : State) : Result :=
  let t := s.writeV regF (highBitFlag (s.readV x))
  .next (t.writeV x (t.readV x <<< 1)).advance

/-- Cxkk, RND Vx, kk (R131): `kk & rand`. -/
def execRnd (x : Nibble) (kk : Byte) (s : State) : Result :=
  .next (s.writeV x (kk &&& s.randPort.current)).advance

end Sys2Proof.Machine
end

