-- ==== Sys2Proof/Machine/Step.lean ====
section
/-! DEFINITION. One `step` transaction (40_step_cycle.md R80), and where the host of the model puts an instruction. -/

namespace Sys2Proof.Machine

/-- One step: the cycle of R80 around `exec`. -/
def step (s : State) : Host.Outcome State Fault Refusal := stepCycle exec s

/-- `s` with the instruction word `w` (its bits from `nbits` up are 0) at `pc` and `pc + 1`, where the next step fetches
it; nothing else changes. It stands for a load of the program from outside (log entry 13). -/
def State.withFetchWord (s : State) (nbits w : Nat) : State := s.placeWord (BitVec.ofNat 16 (w % 2 ^ nbits))

end Sys2Proof.Machine
end

