-- ==== Sys2Proof/WellFormed.lean ====
section
/-! DEFINITION. What is well formed and what is refused: the opcode map with its match and mask columns
(30_encoding.md R66) and the check of a word against it (R67); the check of a program's length (20_memory.md
R51, 60_exceptions.md R206); the check of a key index given as a number (10_state.md R32, U24). A term of
`Instr` needs no check of its own: its operand types are its fields' widths (Syntax.lean). -/

namespace Sys2Proof

/-- One row of the opcode map of R66: a word `op` is the row's instruction exactly when `op & mask = match`. -/
structure OpcodeRow where
  mnemonic : String
  matchBits : Word
  maskBits : Word
  deriving DecidableEq, Repr

/-- `op & mask = match` (R66). -/
def OpcodeRow.holds (r : OpcodeRow) (op : Word) : Bool := op &&& r.maskBits == r.matchBits

/-- The row of an instruction: its match and mask as R66 lists them. -/
def Instr.row : Instr → OpcodeRow
  | .cls => ⟨"CLS", 0x00E0, 0xFFFF⟩
  | .ret => ⟨"RET", 0x00EE, 0xFFFF⟩
  | .jp _ => ⟨"JP_nnn", 0x1000, 0xF000⟩
  | .call _ => ⟨"CALL_nnn", 0x2000, 0xF000⟩
  | .seVxKk _ _ => ⟨"SE_Vx__kk", 0x3000, 0xF000⟩
  | .sneVxKk _ _ => ⟨"SNE_Vx__kk", 0x4000, 0xF000⟩
  | .seVxVy _ _ => ⟨"SE_Vx__Vy", 0x5000, 0xF00F⟩
  | .ldVxKk _ _ => ⟨"LD_Vx__kk", 0x6000, 0xF000⟩
  | .addVxKk _ _ => ⟨"ADD_Vx__kk", 0x7000, 0xF000⟩
  | .ldVxVy _ _ => ⟨"LD_Vx__Vy", 0x8000, 0xF00F⟩
  | .orVxVy _ _ => ⟨"OR_Vx__Vy", 0x8001, 0xF00F⟩
  | .andVxVy _ _ => ⟨"AND_Vx__Vy", 0x8002, 0xF00F⟩
  | .xorVxVy _ _ => ⟨"XOR_Vx__Vy", 0x8003, 0xF00F⟩
  | .addVxVy _ _ => ⟨"ADD_Vx__Vy", 0x8004, 0xF00F⟩
  | .subVxVy _ _ => ⟨"SUB_Vx__Vy", 0x8005, 0xF00F⟩
  | .shrVx _ _ => ⟨"SHR_Vx", 0x8006, 0xF00F⟩
  | .subnVxVy _ _ => ⟨"SUBN_Vx__Vy", 0x8007, 0xF00F⟩
  | .shlVx _ _ => ⟨"SHL_Vx", 0x800E, 0xF00F⟩
  | .sneVxVy _ _ => ⟨"SNE_Vx__Vy", 0x9000, 0xF00F⟩
  | .ldI _ => ⟨"LD_I__nnn", 0xA000, 0xF000⟩
  | .jpV0 _ => ⟨"JP_V0__nnn", 0xB000, 0xF000⟩
  | .rnd _ _ => ⟨"RND_Vx__kk", 0xC000, 0xF000⟩
  | .drw _ _ _ => ⟨"DRW_Vx__Vy__n", 0xD000, 0xF000⟩
  | .skp _ => ⟨"SKP_Vx", 0xE09E, 0xF0FF⟩
  | .sknp _ => ⟨"SKNP_Vx", 0xE0A1, 0xF0FF⟩
  | .ldVxDt _ => ⟨"LD_Vx__DT", 0xF007, 0xF0FF⟩
  | .ldVxK _ => ⟨"LD_Vx__K", 0xF00A, 0xF0FF⟩
  | .ldDtVx _ => ⟨"LD_DT__Vx", 0xF015, 0xF0FF⟩
  | .ldStVx _ => ⟨"LD_ST__Vx", 0xF018, 0xF0FF⟩
  | .addIVx _ => ⟨"ADD_I__Vx", 0xF01E, 0xF0FF⟩
  | .ldFVx _ => ⟨"LD_F__Vx", 0xF029, 0xF0FF⟩
  | .ldBVx _ => ⟨"LD_B__Vx", 0xF033, 0xF0FF⟩
  | .ldMemVx _ => ⟨"LD__I___Vx", 0xF055, 0xF0FF⟩
  | .ldVxMem _ => ⟨"LD_Vx___I", 0xF065, 0xF0FF⟩

/-- The opcode map: the 34 rows of R66, in its order. -/
def opcodeTable : List OpcodeRow :=
  [
   ⟨"CLS", 0x00E0, 0xFFFF⟩,
   ⟨"RET", 0x00EE, 0xFFFF⟩,
   ⟨"JP_nnn", 0x1000, 0xF000⟩,
   ⟨"CALL_nnn", 0x2000, 0xF000⟩,
   ⟨"SE_Vx__kk", 0x3000, 0xF000⟩,
   ⟨"SNE_Vx__kk", 0x4000, 0xF000⟩,
   ⟨"SE_Vx__Vy", 0x5000, 0xF00F⟩,
   ⟨"LD_Vx__kk", 0x6000, 0xF000⟩,
   ⟨"ADD_Vx__kk", 0x7000, 0xF000⟩] ++
  [
   ⟨"LD_Vx__Vy", 0x8000, 0xF00F⟩,
   ⟨"OR_Vx__Vy", 0x8001, 0xF00F⟩,
   ⟨"AND_Vx__Vy", 0x8002, 0xF00F⟩,
   ⟨"XOR_Vx__Vy", 0x8003, 0xF00F⟩,
   ⟨"ADD_Vx__Vy", 0x8004, 0xF00F⟩,
   ⟨"SUB_Vx__Vy", 0x8005, 0xF00F⟩,
   ⟨"SHR_Vx", 0x8006, 0xF00F⟩,
   ⟨"SUBN_Vx__Vy", 0x8007, 0xF00F⟩,
   ⟨"SHL_Vx", 0x800E, 0xF00F⟩] ++
  [
   ⟨"SNE_Vx__Vy", 0x9000, 0xF00F⟩,
   ⟨"LD_I__nnn", 0xA000, 0xF000⟩,
   ⟨"JP_V0__nnn", 0xB000, 0xF000⟩,
   ⟨"RND_Vx__kk", 0xC000, 0xF000⟩,
   ⟨"DRW_Vx__Vy__n", 0xD000, 0xF000⟩,
   ⟨"SKP_Vx", 0xE09E, 0xF0FF⟩,
   ⟨"SKNP_Vx", 0xE0A1, 0xF0FF⟩,
   ⟨"LD_Vx__DT", 0xF007, 0xF0FF⟩,
   ⟨"LD_Vx__K", 0xF00A, 0xF0FF⟩] ++
  [
   ⟨"LD_DT__Vx", 0xF015, 0xF0FF⟩,
   ⟨"LD_ST__Vx", 0xF018, 0xF0FF⟩,
   ⟨"ADD_I__Vx", 0xF01E, 0xF0FF⟩,
   ⟨"LD_F__Vx", 0xF029, 0xF0FF⟩,
   ⟨"LD_B__Vx", 0xF033, 0xF0FF⟩,
   ⟨"LD__I___Vx", 0xF055, 0xF0FF⟩,
   ⟨"LD_Vx___I", 0xF065, 0xF0FF⟩]

/-- A word is well formed when some row of the opcode map holds of it (R66); every other word is illegal (R67). -/
def wellFormedWord (op : Word) : Bool := opcodeTable.any (·.holds op)

/-- A program fits when it has at most 3584 bytes (R51); a longer one is refused with CapacityExceeded (R206). -/
def wellFormedProgram (bytes : List Byte) : Bool := decide (bytes.length ≤ Config.progMax)

/-- A key index fits the 4-bit port of `set_key` when it is below 16; 16 or more cannot be expressed (R32, U24). -/
def wellFormedKeyIndex (k : Nat) : Bool := decide (k < 16)

end Sys2Proof
end

