-- ==== Sys2Proof/Machine/Ports.lean ====
section
/-! DEFINITION. The ports of the CORE (10_state.md §9): the transactions that the host issues between steps, and the
read-only views. No transaction overlaps another (R36, R90). -/

namespace Sys2Proof.Machine

/-- `set_key(index, pressed)`: `KEY[index] <- pressed`, nothing else; accepted in the FAULTED state too (R32). -/
def State.setKey (s : State) (index : Nibble) (pressed : Bool) : State :=
  { s with key := s.key.set index.toNat pressed }

/-- What `load_program` returns (20_memory.md R51). -/
inductive LoadResult where
  | ok
  | capacityExceeded
  deriving DecidableEq, Repr

/-- `load_program(bytes)`: more than 3584 bytes change nothing and return CapacityExceeded; else the bytes go to 512
and up, and no state but the store changes (R51, 60_exceptions.md R206). -/
def State.loadProgram (s : State) (bytes : List Byte) : LoadResult × State :=
  if wellFormedProgram bytes then (.ok, s.setMem (s.mem.putMany Config.progBase bytes))
  else (.capacityExceeded, s)

/-- Name the byte on the `rand` port for the next step (R31). -/
def State.withRand (s : State) (rand : Byte) : State :=
  { s with randPort := ⟨rand :: s.randPort.given, s.randPort.drawn⟩ }

/-- `step` with its `rand` input named (R30, R31). A FAULTED machine samples nothing (40_step_cycle.md R81). -/
def stepWithRand (rand : Byte) (s : State) : Result :=
  match s.status with
  | .running => step (s.withRand rand)
  | .faulted => step s

/-- The transactions that change the CORE (R36). -/
inductive Transaction where
  /-- `reset` (R35) -/
  | reset
  /-- `load_program` (R35) -/
  | loadProgram (bytes : List Byte)
  /-- `set_key` (R32) -/
  | setKey (index : Nibble) (pressed : Bool)
  /-- `step` with its `rand` byte (R30, R31) -/
  | step (rand : Byte)
  deriving DecidableEq, Repr

/-- The effect of one transaction. -/
def transact : Transaction → State → Result
  | .reset, s => .next s.resetPort
  | .loadProgram bytes, s => .next (s.loadProgram bytes).2
  | .setKey index pressed, s => .next (s.setKey index pressed)
  | .step rand, s => stepWithRand rand s

/-- Transactions one after another (R36: no two overlap). -/
def transactAll : List Transaction → State → Result
  | [], s => .next s
  | c :: cs, s =>
    match transact c s with
    | .next t => transactAll cs t
    | .fault r => .fault r
    | .refused r => .refused r

/-- The `framebuffer` port: all 2048 pixels in the order of R26 (R33). -/
def State.framebufferPort (s : State) : List Bool := (List.range 2048).map s.fb.pixel

/-- `STATUS` as its bit: RUNNING is 0, FAULTED is 1 (R21, R34). -/
def State.statusPort (s : State) : BitVec 1 :=
  match s.status with
  | .running => 0
  | .faulted => 1

/-- The numeric fault codes of 60_exceptions.md R200. -/
def FaultKind.code : FaultKind → BitVec 3
  | .none => 0
  | .outOfBounds => 1
  | .unimplementedInstruction => 2
  | .stackOverflow => 3
  | .stackUnderflow => 4
  | .keyIndexOutOfRange => 5

/-- The fault record as the host reads it: `FAULT_KIND`, `FAULT_PC`, `FAULT_OP`, `FAULT_ADDR` (R22, R34). -/
def State.faultPort (s : State) : BitVec 3 × Word × Word × BitVec 17 :=
  (s.faultRec.kind.code, s.faultRec.pc, s.faultRec.op, s.faultRec.addr)

/-- `TONE` as its bit (R29). -/
def State.tonePort (s : State) : BitVec 1 := BitVec.ofBool s.tone

end Sys2Proof.Machine
end

