-- ==== Sys2Proof/Safety.lean ====
section
/-! DEFINITION. The terms that claims use: the instruction a step is about to run, when and why a step faults, what a
safe run and a final state are, and the invariant of the machine. They are written from the rules, not from the
machine's own operations, wherever the rule gives a condition or a value. -/

namespace Sys2Proof.Machine

/-- The word at `pc`, big-endian (20_memory.md R45, R47). -/
def State.wordAtPc (s : State) : Word := s.mem.get s.pc.toNat ++ s.mem.get (s.pc.toNat + 1)

/-- The next step fetches and decodes the instruction `i`: the fetch is inside the store (R45) and the word is the
instruction's (30_encoding.md R69). -/
def State.Fetches (s : State) (i : Instr) : Prop := s.pc.toNat ≤ 4094 ∧ decode s.wordAtPc = .ok i

/-- The fault that an instruction raises when it executes, with its information: the conditions of
60_exceptions.md R200 to R205 and R209. -/
def executeCause (i : Instr) (s : State) : Option (FaultKind × Nat) :=
  match i with
  | .ret => if s.sp.val = 0 then some (.stackUnderflow, 0) else none
  | .call _ => if s.sp.val = 16 then some (.stackOverflow, 0) else none
  | .skp x | .sknp x =>
    if (s.readV x).toNat > 15 then some (.keyIndexOutOfRange, (s.readV x).toNat) else none
  | .drw _ _ n =>
    if n.toNat > 0 ∧ s.index.toNat + n.toNat - 1 ≥ 4096 then some (.outOfBounds, max s.index.toNat 4096) else none
  | .ldBVx _ => if s.index.toNat + 2 ≥ 4096 then some (.outOfBounds, max s.index.toNat 4096) else none
  | .ldMemVx x | .ldVxMem x =>
    if s.index.toNat + x.toNat ≥ 4096 then some (.outOfBounds, max s.index.toNat 4096) else none
  | .cls | .jp _ | .seVxKk _ _ | .sneVxKk _ _ | .seVxVy _ _ | .ldVxKk _ _ | .addVxKk _ _ | .ldVxVy _ _
  | .orVxVy _ _ | .andVxVy _ _ | .xorVxVy _ _ | .addVxVy _ _ | .subVxVy _ _ | .shrVx _ _ | .subnVxVy _ _
  | .shlVx _ _ | .sneVxVy _ _ | .ldI _ | .jpV0 _ | .rnd _ _ | .ldVxDt _ | .ldVxK _ | .ldDtVx _ | .ldStVx _
  | .addIVx _ | .ldFVx _ => none

/-- The fault that a step of a RUNNING machine raises, with `FAULT_OP` and `FAULT_ADDR`: the first one met in the order
fetch, decode, execute (60_exceptions.md R209). -/
def faultCause (s : State) : Option (FaultKind × Word × Nat) :=
  if s.pc.toNat ≥ 4095 then some (.outOfBounds, 0, max s.pc.toNat 4096)
  else match decode s.wordAtPc with
    | .error _ => some (.unimplementedInstruction, s.wordAtPc, 0)
    | .ok i =>
      match executeCause i s with
      | some (kind, info) => some (kind, s.wordAtPc, info)
      | none => none

/-- A safe run: `n` steps, and the machine is still RUNNING (60_exceptions.md R208: a fault is never left by a step). -/
def SafeRun (n : Nat) (s : State) : Prop := ∃ t, Host.Core.run core n s = .next t ∧ t.status = .running

/-- The halt idiom: a RUNNING machine about to execute a `1nnn` jump to its own address (40_step_cycle.md R88). -/
def State.AtSelfJump (s : State) : Prop :=
  s.status = .running ∧ ∃ nnn : Addr12, s.Fetches (.jp nnn) ∧ nnn.toNat = s.pc.toNat

/-- A final state: at a self-jump with both timers 0 (40_step_cycle.md R88). -/
def State.Final (s : State) : Prop := s.AtSelfJump ∧ s.dt = 0 ∧ s.st = 0

/-- What a fault record may hold: code 1 an address outside the store, code 5 an index that is no key, else 0 (R22);
code 2 a word that is no instruction (R202). -/
def FaultRecord.Consistent (r : FaultRecord) : Prop :=
  match r.kind with
  | .none => r = ⟨.none, 0, 0, 0⟩
  | .outOfBounds => 4096 ≤ r.addr.toNat ∧ r.addr.toNat ≤ 65535
  | .unimplementedInstruction => r.addr = 0 ∧ wellFormedWord r.op = false
  | .stackOverflow | .stackUnderflow => r.addr = 0
  | .keyIndexOutOfRange => 15 < r.addr.toNat ∧ r.addr.toNat ≤ 255

/-- The invariant of the machine: the store is in canonical form; `pc` is at most 0x10FE and every stacked return
address at most 4094 (10_state.md R15); the fault record is consistent and empty exactly while RUNNING (R200), and in
the FAULTED state it names the instruction `pc` still points at, with `TONE` 0 (R207). -/
def State.Inv (s : State) : Prop :=
  s.mem.wf ∧
  s.pc.toNat ≤ 0x10FE ∧
  (∀ k : Fin 16, s.stack[k].toNat ≤ 4094) ∧
  s.faultRec.Consistent ∧
  (s.status = .running ↔ s.faultRec.kind = .none) ∧
  (s.status = .faulted → s.faultRec.pc = s.pc ∧ s.tone = false)

end Sys2Proof.Machine
end

