-- ==== Sys2Proof/Certificates/Slice0/Obligations.lean ====
section
/-! DEFINITION. The statements for the provers. Each formalises rules of the spec; OBLIGATIONS.json says which. -/

open Sys2Proof Sys2Proof.Machine

/-! ### Shapes that several statements share -/

namespace Sys2Proof.Claims

/-- `x << 8` in an instruction word (30_encoding.md R62). -/
def xBits (x : Nibble) : Word := x.setWidth 16 <<< 8

/-- `y << 4` in an instruction word (R62). -/
def yBits (y : Nibble) : Word := y.setWidth 16 <<< 4

/-- `i` completes at `s`: it writes `b` to register `x`, advances, and changes nothing else at all. -/
def WritesOneRegister (i : Instr) (s : State) (x : Nibble) (b : Byte) : Prop :=
  ∃ t, exec i s = .next t ∧ t.pc = s.pc + 2 ∧
    (∀ r, t.readV r = if r = x then b else s.readV r) ∧
    t = { s with v := t.v, pc := t.pc }

/-- `i` completes at `s`: the registers read afterwards as `after` says, it advances, and nothing else changes. -/
def WritesRegisters (i : Instr) (s : State) (after : Nibble → Byte) : Prop :=
  ∃ t, exec i s = .next t ∧ t.pc = s.pc + 2 ∧ (∀ r, t.readV r = after r) ∧ t = { s with v := t.v, pc := t.pc }

/-- `i` completes at `s`: `pc` grows by 4 when the condition holds, else by 2, and nothing else changes. -/
def SkipsWhen (i : Instr) (s : State) (c : Prop) : Prop :=
  ∃ t, exec i s = .next t ∧ (c → t.pc = s.pc + 4) ∧ (¬ c → t.pc = s.pc + 2) ∧ t = { s with pc := t.pc }

/-- `i` raises a fault at `s` instead of its own effect: exactly the fault entry of 60_exceptions.md R207, with the
instruction's word as `FAULT_OP`, and nothing else. -/
def RaisesFault (i : Instr) (s : State) (kind : FaultKind) (op : Word) (addr : Nat) : Prop :=
  exec i s = .next { s with
    status := .faulted, faultRec := ⟨kind, s.pc, op, BitVec.ofNat 17 addr⟩, tone := false }

/-- The pixel `p` lies under a set bit of the sprite that `Dxyn` draws at `s` (44_display.md R162): of row `row` and
column `col`, at column `(Vx + col) mod 64` and row `(Vy + row) mod 32`, bit 7 leftmost. -/
def Covered (s : State) (x y n : Nibble) (p : Nat) : Prop :=
  ∃ row col, row < n.toNat ∧ col < 8 ∧
    (s.mem.get (s.index.toNat + row)).getLsbD (7 - col) = true ∧
    p = (((s.readV y).toNat + row) % 32) * 64 + ((s.readV x).toNat + col) % 64

/-- `pc` after an instruction that does not fault, as a number: the table of 40_step_cycle.md R86. -/
def pcAfter (i : Instr) (s : State) : Nat :=
  let pc := s.pc.toNat
  match i with
  | .seVxKk x kk => if s.readV x = kk then pc + 4 else pc + 2
  | .sneVxKk x kk => if s.readV x ≠ kk then pc + 4 else pc + 2
  | .seVxVy x y => if s.readV x = s.readV y then pc + 4 else pc + 2
  | .sneVxVy x y => if s.readV x ≠ s.readV y then pc + 4 else pc + 2
  | .skp x => if s.key[(s.readV x).toNat]? = some true then pc + 4 else pc + 2
  | .sknp x => if s.key[(s.readV x).toNat]? = some false then pc + 4 else pc + 2
  | .ldVxK _ => if ∃ k, s.keyDown k = true then pc + 2 else pc
  | .jp nnn | .call nnn => nnn.toNat
  | .jpV0 nnn => nnn.toNat + (s.readV 0).toNat
  | .ret => s.stack[s.sp.val - 1].toNat + 2
  | .cls | .ldVxKk _ _ | .addVxKk _ _ | .ldVxVy _ _ | .orVxVy _ _ | .andVxVy _ _ | .xorVxVy _ _ | .addVxVy _ _
  | .subVxVy _ _ | .shrVx _ _ | .subnVxVy _ _ | .shlVx _ _ | .ldI _ | .rnd _ _ | .drw _ _ _ | .ldVxDt _
  | .ldDtVx _ | .ldStVx _ | .addIVx _ | .ldFVx _ | .ldBVx _ | .ldMemVx _ | .ldVxMem _ => pc + 2

/-- The byte at address `b` after `Fx33` at `s`: a decimal digit of Vx at `I`, `I + 1`, `I + 2`, else as before
(43_index_memory.md R143). -/
def byteAfterDigits (s : State) (x : Nibble) (b : Nat) : Byte :=
  let v := (s.readV x).toNat
  if b = s.index.toNat then BitVec.ofNat 8 (v / 100)
  else if b = s.index.toNat + 1 then BitVec.ofNat 8 (v / 10 % 10)
  else if b = s.index.toNat + 2 then BitVec.ofNat 8 (v % 10)
  else s.mem.get b

/-- The byte at address `b` after `Fx55` at `s`: `V[b - I]` from `I` to `I + x`, else as before (R144). -/
def byteAfterStore (s : State) (x : Nibble) (b : Nat) : Byte :=
  if s.index.toNat ≤ b ∧ b ≤ s.index.toNat + x.toNat then s.readV (BitVec.ofNat 4 (b - s.index.toNat))
  else s.mem.get b

/-- The instructions that may write register `r`: the `written by` column of 10_state.md section 1 for V[0..15], each
with the register its rule names (VF for Dxyn and for the flag of 8xy4 to 8xyE; V0 to Vx for Fx65). -/
def MayWriteRegister (i : Instr) (r : Nibble) : Prop :=
  match i with
  | .ldVxKk x _ | .addVxKk x _ | .ldVxVy x _ | .orVxVy x _ | .andVxVy x _ | .xorVxVy x _ | .rnd x _ | .ldVxDt x
  | .ldVxK x => r = x
  | .addVxVy x _ | .subVxVy x _ | .shrVx x _ | .subnVxVy x _ | .shlVx x _ => r = x ∨ r = 15
  | .drw _ _ _ => r = 15
  | .ldVxMem x => r.toNat ≤ x.toNat
  | .cls | .ret | .jp _ | .call _ | .seVxKk _ _ | .sneVxKk _ _ | .seVxVy _ _ | .sneVxVy _ _ | .ldI _ | .jpV0 _
  | .skp _ | .sknp _ | .ldDtVx _ | .ldStVx _ | .addIVx _ | .ldFVx _ | .ldBVx _ | .ldMemVx _ => False

/-- The numeric fault codes: the table of 60_exceptions.md R200. -/
def FaultCode (kind : FaultKind) (code : Nat) : Prop :=
  (kind, code) ∈ [(FaultKind.none, 0), (.outOfBounds, 1), (.unimplementedInstruction, 2), (.stackOverflow, 3),
    (.stackUnderflow, 4), (.keyIndexOutOfRange, 5)]

end Sys2Proof.Claims

open Sys2Proof.Claims

/-! ### Encoding and decoding -/

/-- Decoding an encoded instruction gives it back, for every instruction with every operand value. -/
def Obligations.DecodeOfEncodeIsTheInstruction : Prop :=
  ∀ i : Instr, decode (encode i) = .ok i

/-- Encoding a decoded word gives it back: no bit of a legal word is dropped. -/
def Obligations.EncodeOfDecodeIsTheWord : Prop :=
  ∀ (op : Word) (i : Instr), decode op = .ok i → encode i = op

/-- R66: the opcode map has 34 rows, a word is a row's instruction exactly when `op & mask = match`, and no word
matches two rows (disjointness: derived by the spec from the match and mask columns). -/
def Obligations.WordIsInstructionExactlyWhenMaskedMatch : Prop :=
  opcodeTable.length = 34 ∧
  (∀ op i, decode op = .ok i → i.row ∈ opcodeTable ∧ op &&& i.row.maskBits = i.row.matchBits) ∧
  (∀ r ∈ opcodeTable, ∀ op : Word, op &&& r.maskBits = r.matchBits → ∃ i, decode op = .ok i ∧ i.row = r) ∧
  (∀ r ∈ opcodeTable, ∀ q ∈ opcodeTable, ∀ op : Word,
    op &&& r.maskBits = r.matchBits → op &&& q.maskBits = q.matchBits → r = q)

/-- The classes (a) to (f) of R67: exactly these words are illegal, each rejected under its own name (the names are the
model's; that 5xyN and 9xyN are illegal is the spec's decision D14). -/
def Obligations.IllegalWordsAreRejectedByClass : Prop :=
  ∀ op : Word,
    (decode op = .error .family0 ↔ op.toNat < 0x1000 ∧ op ≠ 0x00E0 ∧ op ≠ 0x00EE) ∧
    (decode op = .error .family5 ↔ op.toNat / 0x1000 = 5 ∧ op.toNat % 16 ≠ 0) ∧
    (decode op = .error .family8 ↔ op.toNat / 0x1000 = 8 ∧ op.toNat % 16 ∈ [8, 9, 0xA, 0xB, 0xC, 0xD, 0xF]) ∧
    (decode op = .error .family9 ↔ op.toNat / 0x1000 = 9 ∧ op.toNat % 16 ≠ 0) ∧
    (decode op = .error .familyE ↔ op.toNat / 0x1000 = 0xE ∧ op.toNat % 256 ∉ [0x9E, 0xA1]) ∧
    (decode op = .error .familyF ↔
      op.toNat / 0x1000 = 0xF ∧ op.toNat % 256 ∉ [0x07, 0x0A, 0x15, 0x18, 0x1E, 0x29, 0x33, 0x55, 0x65])

/-- Words written out in the rules' examples decode to the instructions they stand for; illegal ones are rejected. -/
def Obligations.ExampleWordsDecode : Prop :=
  decode 0x00E0 = .ok .cls ∧ decode 0x00EE = .ok .ret ∧ decode 0x1ABC = .ok (.jp 0xABC) ∧
  decode 0x2210 = .ok (.call 0x210) ∧ decode 0x5230 = .ok (.seVxVy 2 3) ∧ decode 0x6A9D = .ok (.ldVxKk 0xA 0x9D) ∧
  decode 0x8016 = .ok (.shrVx 0 1) ∧ decode 0xA300 = .ok (.ldI 0x300) ∧ decode 0xC00F = .ok (.rnd 0 0x0F) ∧
  decode 0xD012 = .ok (.drw 0 1 2) ∧ decode 0xE39E = .ok (.skp 3) ∧ decode 0xF21E = .ok (.addIVx 2) ∧
  decode 0x0000 = .error .family0 ∧ decode 0x5121 = .error .family5 ∧ decode 0xE300 = .error .familyE ∧
  decode 0xF0FF = .error .familyF

/-! ### The step cycle -/

/-- A step of a FAULTED machine changes nothing at all, and so does any number of steps (R81; that it is a no-op and no
stop is the spec's decision D2, log entry 3). -/
def Obligations.StepsOfFaultedMachineChangeNothing : Prop :=
  ∀ s : State, s.status = .faulted → step s = .next s ∧ ∀ n, Host.Core.run core n s = .next s

/-- When the bytes at `pc` decode to an instruction, a step of a RUNNING machine is that instruction's `exec`, then
the timer tick unless it faulted; and the `rand` port, the model's own, moves on. -/
def Obligations.StepRunsTheDecodedInstruction : Prop :=
  ∀ (s : State) (i : Instr), s.status = .running → s.pc.toNat ≤ 4094 →
    decodeBytes (s.mem.get s.pc.toNat) (s.mem.get (s.pc.toNat + 1)) = .ok i →
    ∃ t, exec i s = .next t ∧
      (t.status = .running → step s = .next { t with
        dt := if t.dt = 0 then 0 else t.dt - 1
        tone := decide (t.st = 1)
        st := if t.st = 0 then 0 else t.st - 1
        randPort := t.randPort.sampled }) ∧
      (t.status = .faulted → step s = .next { t with randPort := t.randPort.sampled })

/-- R82 and R45: the fetch reads the big-endian word at `pc` and moves nothing; a word read raises OutOfBounds when the
address after its own is 4096 or more, which for the fetch is `pc >= 4095`, and the step is then the fault entry with
`FAULT_OP = 0` (R207: the spec's decisions D2, D3, D23), after which the `rand` port has been sampled (log entry 1). -/
def Obligations.FetchReadsTheWordOrFaults : Prop :=
  (∀ (m : Memory) (a : Nat),
    (a + 1 < 4096 → ∃ op : Word, loadWord m a = .ok op ∧ op = m.get a ++ m.get (a + 1) ∧
      op.toNat = (m.get a).toNat * 256 + (m.get (a + 1)).toNat) ∧
    (a + 1 ≥ 4096 → loadWord m a = .error (if a ≥ 4096 then a else a + 1))) ∧
  ∀ s : State,
    (s.pc.toNat ≤ 4094 → loadWord s.mem s.pc.toNat = .ok s.wordAtPc) ∧
    (s.pc.toNat ≥ 4095 → s.status = .running → step s = .next { s with
      status := .faulted
      faultRec := ⟨.outOfBounds, s.pc, 0, BitVec.ofNat 17 (max s.pc.toNat 4096)⟩
      tone := false
      randPort := s.randPort.sampled })

/-- R202: a word that matches no pattern raises UnimplementedInstruction with the word recorded; `0x0000` is one. The
step is the fault entry of R207 (the spec's decisions D2, D3, D23), and the `rand` port has been sampled (log entry
1). -/
def Obligations.IllegalWordRaisesUnimplementedInstruction : Prop :=
  wellFormedWord 0x0000 = false ∧
  ∀ s : State, s.status = .running → s.pc.toNat ≤ 4094 → wellFormedWord s.wordAtPc = false →
    step s = .next { s with
      status := .faulted
      faultRec := ⟨.unimplementedInstruction, s.pc, s.wordAtPc, 0⟩
      tone := false
      randPort := s.randPort.sampled }

/-- R85: after execute, each timer falls by one and stays at 0 when it is 0; `TONE` is 1 exactly when `ST` was 1 before
the decrement; on every step that does not fault. -/
def Obligations.TimersTickOncePerStep : Prop :=
  ∀ s t : State, s.status = .running → step s = .next t → t.status = .running →
    ∃ i u, s.Fetches i ∧ exec i s = .next u ∧
      t.dt.toNat = u.dt.toNat - 1 ∧ t.st.toNat = u.st.toNat - 1 ∧ (t.tone = true ↔ u.st.toNat = 1)

/-- R89 (d), derived by the spec from R80 and R85: a sound timer set to `v >= 1` raises `TONE` on exactly one step, `v
- 1` steps after the Fx18 step, as long as no later Fx18 is executed and no fault intervenes. Step `k` counts from the
Fx18 step, which is step 0. -/
def Obligations.SoundTimerRaisesToneExactlyOnce : Prop :=
  ∀ (s : State) (x : Nibble) (N : Nat), s.status = .running → s.Fetches (.ldStVx x) → 1 ≤ (s.readV x).toNat →
    (∀ k u, 1 ≤ k → k ≤ N → Host.Core.run core k s = .next u →
      u.status = .running ∧ ∀ y, ¬ u.Fetches (.ldStVx y)) →
    ∀ k, k ≤ N → ∃ t, Host.Core.run core (k + 1) s = .next t ∧
      (t.status = .running → (t.tone = true ↔ k = (s.readV x).toNat - 1))

/-- `TONE` is 1 after a step whose tick found `ST = 1`, and 0 after every other step, a faulting one and a no-op one
included; it is 0 after reset (R29; the level form and the reset value are the spec's decision D25). -/
def Obligations.ToneIsOneOnlyAfterTheFinalTick : Prop :=
  State.reset.tone = false ∧
  ∀ s t : State, s.Inv → step s = .next t →
    (t.tone = true ↔ s.status = .running ∧ t.status = .running ∧
      ∃ i u, s.Fetches i ∧ exec i s = .next u ∧ u.st = 1)

/-- R86: `pc` after a step that does not fault is what the table says, as a number: no sum wraps. -/
def Obligations.PcAfterEachInstruction : Prop :=
  ∀ (s t : State) (i : Instr), s.Inv → s.status = .running → s.Fetches i → step s = .next t → t.status = .running →
    t.pc.toNat = pcAfter i s

/-- Every step, and every instruction in every state, answers a next state: the model never stops by itself. -/
def Obligations.EveryStepAnswersANextState : Prop :=
  (∀ s : State, ∃ t, step s = .next t) ∧ ∀ (i : Instr) (s : State), ∃ t, exec i s = .next t

/-! ### Faults -/

/-- A step of a RUNNING machine faults exactly when the first of the conditions in the order fetch, decode, execute
holds (R209, the spec's decision D24), the bounds conditions being those of R201. -/
def Obligations.StepFaultsExactlyOnTheListedConditions : Prop :=
  ∀ s : State, s.status = .running → ∃ t, step s = .next t ∧ (t.status = .faulted ↔ faultCause s ≠ none)

/-- A faulting step writes `STATUS`, the fault record and `TONE`, and nothing else of the CORE (R207; that faults are
precise and what is recorded are the spec's decisions D2, D3, D23; that it samples the `rand` port is log entry 1). The
host then reads `status` as 1, the code of R200 (decision D22) and the record on the ports of R34, and `TONE` as 0. -/
def Obligations.FaultEntryIsPrecise : Prop :=
  ∀ s t : State, s.status = .running → step s = .next t → t.status = .faulted →
    ∃ kind op info, faultCause s = some (kind, op, info) ∧
      (t = { s with
        status := .faulted
        faultRec := ⟨kind, s.pc, op, BitVec.ofNat 17 info⟩
        tone := false
        randPort := s.randPort.sampled }) ∧
      t.statusPort.toNat = 1 ∧ t.tonePort.toNat = 0 ∧
      ∃ code, FaultCode kind code ∧ 1 ≤ code ∧
        t.faultPort = (BitVec.ofNat 3 code, s.pc, op, BitVec.ofNat 17 info)

/-- R208: `STATUS = FAULTED` is sticky: whatever the host does short of a reset, only the keys and the store can change
(R32 and R51, the spec's decision D28), because a step is a no-op (R81, decision D2, log entry 3), and a reset is the
way out. -/
def Obligations.OnlyResetLeavesTheFaultedState : Prop :=
  ∀ s : State, s.status = .faulted →
    (∀ cs : List Transaction, .reset ∉ cs →
      ∃ t, transactAll cs s = .next t ∧ t = { s with key := t.key, mem := t.mem }) ∧
    ∃ t, transact .reset s = .next t ∧ t.status = .running ∧ t.faultRec.kind = .none

/-! ### Control flow -/

/-- R102: the jump to `nnn`, which nothing else changes with. -/
def Obligations.JumpSetsThePc : Prop :=
  ∀ (s : State) (nnn : Addr12),
    encode (.jp nnn) = 0x1000 ||| nnn.setWidth 16 ∧
    ∃ t, exec (.jp nnn) s = .next t ∧ t.pc.toNat = nnn.toNat ∧ t = { s with pc := t.pc }

/-- R108: the jump to `nnn + V0`, not reduced to 12 bits and not checked; a sum of 4095 or more makes the next fetch
raise OutOfBounds (with the fault record of R207, the spec's decisions D2, D23). -/
def Obligations.JumpV0AddsTheOffset : Prop :=
  ∀ (s : State) (nnn : Addr12), let target := nnn.toNat + (s.readV 0).toNat
    encode (.jpV0 nnn) = 0xB000 ||| nnn.setWidth 16 ∧
    (∃ t, exec (.jpV0 nnn) s = .next t ∧ t.pc.toNat = target ∧ t = { s with pc := t.pc }) ∧
    (s.status = .running → s.Fetches (.jpV0 nnn) → target ≥ 4095 →
      ∃ t u, step s = .next t ∧ t.status = .running ∧ t.pc.toNat = target ∧
        step t = .next u ∧ u.status = .faulted ∧
        u.faultRec = ⟨.outOfBounds, t.pc, 0, BitVec.ofNat 17 (max target 4096)⟩)

/-- R103: CALL pushes the address of the CALL itself and jumps; with 16 addresses stacked it raises StackOverflow (the
fault's name and its entry are the spec's decisions D2, D3, D4). -/
def Obligations.CallPushesItsOwnAddress : Prop :=
  ∀ (s : State) (nnn : Addr12),
    encode (.call nnn) = 0x2000 ||| nnn.setWidth 16 ∧
    (s.sp.val < 16 → ∃ t, exec (.call nnn) s = .next t ∧ t.pc.toNat = nnn.toNat ∧ t.sp.val = s.sp.val + 1 ∧
      (∀ k : Fin 16, t.stack[k] = if k.val = s.sp.val then s.pc else s.stack[k]) ∧
      t = { s with pc := t.pc, sp := t.sp, stack := t.stack }) ∧
    (s.sp.val = 16 → RaisesFault (.call nnn) s .stackOverflow (0x2000 ||| nnn.setWidth 16) 0)

/-- RET pops and continues after the CALL; on an empty stack it raises StackUnderflow (R101; the fault's name and that
the popped slot keeps its value are the spec's decisions D4, D27). -/
def Obligations.ReturnPopsAndContinuesAfterTheCall : Prop :=
  encode .ret = 0x00EE ∧
  ∀ s : State,
    (∀ k : Fin 16, s.sp.val = k.val + 1 → ∃ t, exec .ret s = .next t ∧ t.pc = s.stack[k] + 2 ∧ t.sp.val = k.val ∧
      t = { s with pc := t.pc, sp := t.sp }) ∧
    (s.sp.val = 0 → RaisesFault .ret s .stackUnderflow 0x00EE 0)

/-- CALL then RET continues right after the call site, with the depth and the registers as before. -/
def Obligations.CallThenReturnContinuesAfterTheCallSite : Prop :=
  ∀ (s : State) (nnn : Addr12), s.status = .running → s.Fetches (.call nnn) → s.sp.val < 16 → nnn.toNat ≤ 4094 →
    decode (s.mem.get nnn.toNat ++ s.mem.get (nnn.toNat + 1)) = .ok .ret →
    ∃ t u, step s = .next t ∧ t.pc.toNat = nnn.toNat ∧ step t = .next u ∧ u.status = .running ∧
      u.pc.toNat = s.pc.toNat + 2 ∧ u.sp = s.sp ∧ u.v = s.v ∧ u.mem = s.mem ∧ u.index = s.index ∧ u.fb = s.fb

/-- R104 to R107: the skips compare whole register values. -/
def Obligations.SkipsCompareRegisters : Prop :=
  ∀ (s : State) (x y : Nibble) (kk : Byte),
    (encode (.seVxKk x kk) = 0x3000 ||| xBits x ||| kk.setWidth 16 ∧
      SkipsWhen (.seVxKk x kk) s ((s.readV x).toNat = kk.toNat)) ∧
    (encode (.sneVxKk x kk) = 0x4000 ||| xBits x ||| kk.setWidth 16 ∧
      SkipsWhen (.sneVxKk x kk) s ((s.readV x).toNat ≠ kk.toNat)) ∧
    (encode (.seVxVy x y) = 0x5000 ||| xBits x ||| yBits y ∧
      SkipsWhen (.seVxVy x y) s ((s.readV x).toNat = (s.readV y).toNat)) ∧
    (encode (.sneVxVy x y) = 0x9000 ||| xBits x ||| yBits y ∧
      SkipsWhen (.sneVxVy x y) s ((s.readV x).toNat ≠ (s.readV y).toNat))

/-! ### Load, arithmetic and logic -/

/-- R120, R122: load immediate and register copy. -/
def Obligations.LoadsWriteOneRegister : Prop :=
  ∀ (s : State) (x y : Nibble) (kk : Byte),
    (encode (.ldVxKk x kk) = 0x6000 ||| xBits x ||| kk.setWidth 16 ∧ WritesOneRegister (.ldVxKk x kk) s x kk) ∧
    (encode (.ldVxVy x y) = 0x8000 ||| xBits x ||| yBits y ∧ WritesOneRegister (.ldVxVy x y) s x (s.readV y))

/-- R121: add immediate wraps to 8 bits and writes no flag. -/
def Obligations.AddImmediateWrapsWithoutFlag : Prop :=
  ∀ (s : State) (x : Nibble) (kk : Byte),
    encode (.addVxKk x kk) = 0x7000 ||| xBits x ||| kk.setWidth 16 ∧
    WritesOneRegister (.addVxKk x kk) s x (BitVec.ofNat 8 (((s.readV x).toNat + kk.toNat) % 256))

/-- R123 to R125: the bitwise operations, bit by bit, without a flag. -/
def Obligations.LogicWritesOneRegisterWithoutFlag : Prop :=
  ∀ (s : State) (x y : Nibble),
    (encode (.orVxVy x y) = 0x8001 ||| xBits x ||| yBits y ∧
      WritesOneRegister (.orVxVy x y) s x (s.readV x ||| s.readV y)) ∧
    (encode (.andVxVy x y) = 0x8002 ||| xBits x ||| yBits y ∧
      WritesOneRegister (.andVxVy x y) s x (s.readV x &&& s.readV y)) ∧
    (encode (.xorVxVy x y) = 0x8003 ||| xBits x ||| yBits y ∧
      WritesOneRegister (.xorVxVy x y) s x (s.readV x ^^^ s.readV y))

/-- R126: the sum to Vx, then the carry to VF. With `x = 15` the carry stays, and with `y = 15` the old VF is an addend:
the forms with register 15 follow the spec's decision D10 (log entry 14). -/
def Obligations.AddWritesResultThenCarry : Prop :=
  ∀ (s : State) (x y : Nibble),
    encode (.addVxVy x y) = 0x8004 ||| xBits x ||| yBits y ∧
    WritesRegisters (.addVxVy x y) s fun r =>
      let sum := (s.readV x).toNat + (s.readV y).toNat
      if r = 15 then (if sum > 255 then 1 else 0)
      else if r = x then BitVec.ofNat 8 (sum % 256)
      else s.readV r

/-- R127, R129 (with register 15: the spec's decision D10): the flag first, strictly greater and unsigned; the
difference reads the registers after it, so an operand that is register 15 is the flag. -/
def Obligations.SubtractWritesFlagThenDifference : Prop :=
  ∀ (s : State) (x y : Nibble),
    (encode (.subVxVy x y) = 0x8005 ||| xBits x ||| yBits y ∧
      WritesRegisters (.subVxVy x y) s fun r =>
        let f : Byte := if (s.readV x).toNat > (s.readV y).toNat then 1 else 0
        let a := if x = 15 then f else s.readV x
        let b := if y = 15 then f else s.readV y
        if r = x then BitVec.ofNat 8 ((a.toNat + 256 - b.toNat) % 256) else if r = 15 then f else s.readV r) ∧
    (encode (.subnVxVy x y) = 0x8007 ||| xBits x ||| yBits y ∧
      WritesRegisters (.subnVxVy x y) s fun r =>
        let f : Byte := if (s.readV y).toNat > (s.readV x).toNat then 1 else 0
        let a := if x = 15 then f else s.readV x
        let b := if y = 15 then f else s.readV y
        if r = x then BitVec.ofNat 8 ((b.toNat + 256 - a.toNat) % 256) else if r = 15 then f else s.readV r)

/-- R128, R130 (with register 15: the spec's decision D10): the bit shifted out goes to VF first, then the shift by one;
`y` selects nothing. -/
def Obligations.ShiftsWriteFlagThenResult : Prop :=
  ∀ (s : State) (x y : Nibble),
    (encode (.shrVx x y) = 0x8006 ||| xBits x ||| yBits y ∧
      WritesRegisters (.shrVx x y) s fun r =>
        let f : Byte := BitVec.ofNat 8 ((s.readV x).toNat % 2)
        let a := if x = 15 then f else s.readV x
        if r = x then BitVec.ofNat 8 (a.toNat / 2) else if r = 15 then f else s.readV r) ∧
    (encode (.shlVx x y) = 0x800E ||| xBits x ||| yBits y ∧
      WritesRegisters (.shlVx x y) s fun r =>
        let f : Byte := BitVec.ofNat 8 ((s.readV x).toNat / 128)
        let a := if x = 15 then f else s.readV x
        if r = x then BitVec.ofNat 8 (a.toNat * 2 % 256) else if r = 15 then f else s.readV r)

/-- The corner cases with register 15, row by row of R133 (the spec's decision D10). `F` is VF before, as a number. -/
def Obligations.Register15CornerCases : Prop :=
  ∀ s : State, let F := (s.readV 15).toNat
    (∃ t, exec (.addVxVy 15 15) s = .next t ∧ (t.readV 15).toNat = (F + F) / 256) ∧
    (∃ t, exec (.subVxVy 15 15) s = .next t ∧ (t.readV 15).toNat = 0) ∧
    (∃ t, exec (.subnVxVy 15 15) s = .next t ∧ (t.readV 15).toNat = 0) ∧
    (∀ y : Nibble,
      (∃ t, exec (.shrVx 15 y) s = .next t ∧ (t.readV 15).toNat = 0) ∧
      (∃ t, exec (.shlVx 15 y) s = .next t ∧ (t.readV 15).toNat = 2 * (F / 128))) ∧
    (∀ z : Nibble, z ≠ 15 → let Z := (s.readV z).toNat
      (∃ t, exec (.addVxVy 15 z) s = .next t ∧ (t.readV 15).toNat = (F + Z) / 256) ∧
      (∃ t, exec (.addVxVy z 15) s = .next t ∧
        (t.readV z).toNat = (Z + F) % 256 ∧ (t.readV 15).toNat = (Z + F) / 256) ∧
      (∃ t, exec (.subVxVy 15 z) s = .next t ∧
        (t.readV 15).toNat = ((if F > Z then 1 else 0) + 256 - Z) % 256) ∧
      (∃ t, exec (.subVxVy z 15) s = .next t ∧
        (t.readV z).toNat = (Z + 256 - (if Z > F then 1 else 0)) % 256 ∧
        (t.readV 15).toNat = if Z > F then 1 else 0) ∧
      (∃ t, exec (.subnVxVy 15 z) s = .next t ∧
        (t.readV 15).toNat = (Z + 256 - (if Z > F then 1 else 0)) % 256) ∧
      (∃ t, exec (.subnVxVy z 15) s = .next t ∧
        (t.readV z).toNat = ((if F > Z then 1 else 0) + 256 - Z) % 256 ∧
        (t.readV 15).toNat = if F > Z then 1 else 0) ∧
      (∃ t, exec (.shrVx z 15) s = .next t ∧ (t.readV z).toNat = Z / 2 ∧ (t.readV 15).toNat = Z % 2) ∧
      (∃ t, exec (.shlVx z 15) s = .next t ∧ (t.readV z).toNat = Z * 2 % 256 ∧ (t.readV 15).toNat = Z / 128))

/-- R131: `kk & rand`, for every byte on the `rand` port: the one the host names, or the free value (log entry 1). -/
def Obligations.RandomByteIsMasked : Prop :=
  ∀ (s : State) (x : Nibble) (kk rand : Byte),
    encode (.rnd x kk) = 0xC000 ||| xBits x ||| kk.setWidth 16 ∧
    WritesOneRegister (.rnd x kk) s x (kk &&& s.randPort.current) ∧
    WritesOneRegister (.rnd x kk) (s.withRand rand) x (kk &&& rand)

/-- R31 (the spec's decision D16; how the port is held is log entry 1): `rand` is consumed only by Cxkk: on every other
step, a no-op one included, its value has no effect on anything. -/
def Obligations.RandMattersOnlyToRnd : Prop :=
  ∀ (s : State) (rand rand' : Byte), (s.status = .running → ∀ x kk, ¬ s.Fetches (.rnd x kk)) →
    stepWithRand rand s = stepWithRand rand' s

/-! ### Index register and memory -/

/-- R140 to R142: the three writes of `I` (that Fx1E wraps and Fx29 does not mask are the spec's decisions D11, D30). -/
def Obligations.IndexWrites : Prop :=
  ∀ (s : State) (x : Nibble) (nnn : Addr12),
    (encode (.ldI nnn) = 0xA000 ||| nnn.setWidth 16 ∧
      ∃ t, exec (.ldI nnn) s = .next t ∧ t.index.toNat = nnn.toNat ∧
        t = { s with index := t.index, pc := s.pc + 2 }) ∧
    (encode (.addIVx x) = 0xF01E ||| xBits x ∧
      ∃ t, exec (.addIVx x) s = .next t ∧ t.index.toNat = (s.index.toNat + (s.readV x).toNat) % 65536 ∧
        t = { s with index := t.index, pc := s.pc + 2 }) ∧
    (encode (.ldFVx x) = 0xF029 ||| xBits x ∧
      ∃ t, exec (.ldFVx x) s = .next t ∧ t.index.toNat = (s.readV x).toNat * 5 ∧
        t = { s with index := t.index, pc := s.pc + 2 })

/-- R143: the decimal digits of Vx at `I`, `I + 1`, `I + 2`, every other byte as before; out of range nothing is
written (the spec's decision D3) and OutOfBounds names the lowest address outside (R207, decisions D2, D23). -/
def Obligations.DecimalDigitsAreStored : Prop :=
  ∀ (s : State) (x : Nibble), s.mem.wf →
    encode (.ldBVx x) = 0xF033 ||| xBits x ∧
    (s.index.toNat + 2 < 4096 → ∃ t, exec (.ldBVx x) s = .next t ∧
      (t.mem.get s.index.toNat).toNat = (s.readV x).toNat / 100 ∧
      (t.mem.get (s.index.toNat + 1)).toNat = (s.readV x).toNat / 10 % 10 ∧
      (t.mem.get (s.index.toNat + 2)).toNat = (s.readV x).toNat % 10 ∧
      (∀ a, a < s.index.toNat ∨ s.index.toNat + 2 < a → t.mem.get a = s.mem.get a) ∧
      t = { s with mem := t.mem, pc := s.pc + 2 }) ∧
    (s.index.toNat + 2 ≥ 4096 →
      RaisesFault (.ldBVx x) s .outOfBounds (0xF033 ||| xBits x) (max s.index.toNat 4096))

/-- R144: V0 to Vx, both included, at `I` and up, every other byte as before; out of range nothing is written (the
spec's decision D3) and OutOfBounds names the lowest address outside (R207, decisions D2, D23). -/
def Obligations.RegistersAreStored : Prop :=
  ∀ (s : State) (x : Nibble), s.mem.wf →
    encode (.ldMemVx x) = 0xF055 ||| xBits x ∧
    (s.index.toNat + x.toNat < 4096 → ∃ t, exec (.ldMemVx x) s = .next t ∧
      (∀ r : Nibble, r.toNat ≤ x.toNat → t.mem.get (s.index.toNat + r.toNat) = s.readV r) ∧
      (∀ a, a < s.index.toNat ∨ s.index.toNat + x.toNat < a → t.mem.get a = s.mem.get a) ∧
      t = { s with mem := t.mem, pc := s.pc + 2 }) ∧
    (s.index.toNat + x.toNat ≥ 4096 →
      RaisesFault (.ldMemVx x) s .outOfBounds (0xF055 ||| xBits x) (max s.index.toNat 4096))

/-- R145: V0 to Vx, both included, from `I` and up, the other registers and all of memory as before; out of range no
register is written (the spec's decision D3) and OutOfBounds names the lowest address outside (R207, decisions D2,
D23). -/
def Obligations.RegistersAreLoaded : Prop :=
  ∀ (s : State) (x : Nibble),
    encode (.ldVxMem x) = 0xF065 ||| xBits x ∧
    (s.index.toNat + x.toNat < 4096 →
      WritesRegisters (.ldVxMem x) s fun r =>
        if r.toNat ≤ x.toNat then s.mem.get (s.index.toNat + r.toNat) else s.readV r) ∧
    (s.index.toNat + x.toNat ≥ 4096 →
      RaisesFault (.ldVxMem x) s .outOfBounds (0xF065 ||| xBits x) (max s.index.toNat 4096))

/-- R54, derived by the spec from R53: every byte that Fx33 or Fx55 has stored is what the next fetch reads. For every
address `a` that a fetch can read, the word at `a` afterwards is made of the bytes stored and, where only one of its two
bytes was stored or none, of the bytes that were there before. -/
def Obligations.StoredBytesAreFetched : Prop :=
  ∀ (s : State) (x : Nibble), s.mem.wf →
    (s.index.toNat + 2 < 4096 → ∃ t, exec (.ldBVx x) s = .next t ∧
      ∀ a, a ≤ 4094 → loadWord t.mem a = .ok (byteAfterDigits s x a ++ byteAfterDigits s x (a + 1))) ∧
    (s.index.toNat + x.toNat < 4096 → ∃ t, exec (.ldMemVx x) s = .next t ∧
      ∀ a, a ≤ 4094 → loadWord t.mem a = .ok (byteAfterStore s x a ++ byteAfterStore s x (a + 1)))

/-- R43: one byte is read when its address is below 4096, else OutOfBounds names the address; the same for the write
of one byte (20_memory.md section 2), which changes no other byte and keeps the model's canonical form (log
entry 9). -/
def Obligations.ByteAccessIsCheckedAgainstTheStore : Prop :=
  ∀ (m : Memory) (a : Nat) (v : Byte), m.wf →
    (a < 4096 → loadByte m a = .ok (m.get a) ∧
      ∃ m', storeByte m a v = .ok m' ∧ m'.wf ∧ ∀ b, m'.get b = if b = a then v else m.get b) ∧
    (a ≥ 4096 → loadByte m a = .error a ∧ storeByte m a v = .error a)

/-- Two stores in canonical form that read the same at every address are the same data. -/
def Obligations.EqualReadsAreEqualStores : Prop :=
  ∀ m m' : Memory, m.wf → m'.wf → (∀ a, m.get a = m'.get a) → m = m'

/-! ### Display -/

/-- R161: CLS clears every pixel and changes nothing else. -/
def Obligations.ClearScreenClearsEveryPixel : Prop :=
  encode .cls = 0x00E0 ∧
  ∀ s : State, ∃ t, exec .cls s = .next t ∧ (∀ p, p < 2048 → t.fb.pixel p = false) ∧
    t = { s with fb := t.fb, pc := s.pc + 2 }

/-- R162: Dxyn toggles exactly the pixels under set sprite bits; VF is 1 when one of them was 1, else 0; nothing else
changes; out of range nothing is drawn and OutOfBounds names the lowest address outside (R207, the spec's decisions D2,
D3, D23). The row modulus 32 is the spec's decision D7, bit 7 leftmost its decision D8 (general knowledge, not in the
source), the latched coordinates with `x = 15` or `y = 15` its decision D9 (log entry 14). -/
def Obligations.DrawTogglesTheCoveredPixels : Prop :=
  ∀ (s : State) (x y n : Nibble),
    encode (.drw x y n) = 0xD000 ||| xBits x ||| yBits y ||| n.setWidth 16 ∧
    (n.toNat = 0 ∨ s.index.toNat + n.toNat - 1 < 4096 → ∃ t, exec (.drw x y n) s = .next t ∧
      (∀ p, p < 2048 → (Covered s x y n p → t.fb.pixel p = !s.fb.pixel p) ∧
        (¬ Covered s x y n p → t.fb.pixel p = s.fb.pixel p)) ∧
      ((∃ p, p < 2048 ∧ Covered s x y n p ∧ s.fb.pixel p = true) → t.readV 15 = 1) ∧
      ((∀ p, p < 2048 → Covered s x y n p → s.fb.pixel p = false) → t.readV 15 = 0) ∧
      (∀ r, r ≠ 15 → t.readV r = s.readV r) ∧
      t = { s with fb := t.fb, v := t.v, pc := s.pc + 2 }) ∧
    (n.toNat > 0 ∧ s.index.toNat + n.toNat - 1 ≥ 4096 →
      RaisesFault (.drw x y n) s .outOfBounds (0xD000 ||| xBits x ||| yBits y ||| n.setWidth 16)
        (max s.index.toNat 4096))

/-- R164 (c), derived by the spec from R162: drawing the same sprite twice at the same place restores the framebuffer,
whatever it held. The second draw sets VF when some pixel of the sprite was 0 before, which is so for every sprite with
a set bit drawn where nothing collides; and the first draw then leaves VF 0. -/
def Obligations.DrawingTwiceRestoresTheFramebuffer : Prop :=
  ∀ (s : State) (x y n : Nibble), x ≠ 15 → y ≠ 15 → n.toNat = 0 ∨ s.index.toNat + n.toNat - 1 < 4096 →
    ∃ t u, exec (.drw x y n) s = .next t ∧ exec (.drw x y n) t = .next u ∧ u.fb = s.fb ∧
      ((∀ p, p < 2048 → Covered s x y n p → s.fb.pixel p = false) → t.readV 15 = 0) ∧
      ((∃ p, p < 2048 ∧ Covered s x y n p ∧ s.fb.pixel p = false) → u.readV 15 = 1)

/-! ### Input and timers -/

/-- R170, R171: the key tests; a register above 15 raises KeyIndexOutOfRange with the index recorded (the spec's
decision D5). -/
def Obligations.KeySkipsTestTheNamedKey : Prop :=
  ∀ (s : State) (x : Nibble),
    encode (.skp x) = 0xE09E ||| xBits x ∧ encode (.sknp x) = 0xE0A1 ||| xBits x ∧
    (∀ k : Fin 16, (s.readV x).toNat = k.val →
      SkipsWhen (.skp x) s (s.key[k] = true) ∧ SkipsWhen (.sknp x) s (s.key[k] = false)) ∧
    ((s.readV x).toNat > 15 →
      RaisesFault (.skp x) s .keyIndexOutOfRange (0xE09E ||| xBits x) (s.readV x).toNat ∧
      RaisesFault (.sknp x) s .keyIndexOutOfRange (0xE0A1 ||| xBits x) (s.readV x).toNat)

/-- R172: Fx0A takes the least pressed key (the spec's decisions D13, D29) and advances once; with no key pressed
nothing is written. -/
def Obligations.WaitForKeyTakesTheLeastPressedKey : Prop :=
  ∀ (s : State) (x : Nibble),
    encode (.ldVxK x) = 0xF00A ||| xBits x ∧
    (∀ k : Fin 16, s.key[k] = true → (∀ j : Fin 16, j < k → s.key[j] = false) →
      WritesOneRegister (.ldVxK x) s x (BitVec.ofNat 8 k.val)) ∧
    ((∀ k : Fin 16, s.key[k] = false) → exec (.ldVxK x) s = .next s)

/-- R87: a waiting step is a whole step in which only the timers move (derived by the spec from R80 and R85), for any
number of steps; `TONE` and the `rand` port follow the steps. -/
def Obligations.WaitingForAKeyOnlyTicks : Prop :=
  ∀ (n : Nat) (s : State) (x : Nibble), s.status = .running → s.Fetches (.ldVxK x) →
    (∀ k : Fin 16, s.key[k] = false) →
    ∃ t, Host.Core.run core n s = .next t ∧
      t.dt.toNat = s.dt.toNat - n ∧ t.st.toNat = s.st.toNat - n ∧
      t = { s with dt := t.dt, st := t.st, tone := t.tone, randPort := t.randPort }

/-- R173 to R175: reading and setting the timers. The value read is the one before the tick of the same step; a timer
just set is ticked in the same step. -/
def Obligations.TimerInstructions : Prop :=
  ∀ (s : State) (x : Nibble),
    (encode (.ldVxDt x) = 0xF007 ||| xBits x ∧ WritesOneRegister (.ldVxDt x) s x s.dt) ∧
    (encode (.ldDtVx x) = 0xF015 ||| xBits x ∧
      exec (.ldDtVx x) s = .next { s with dt := s.readV x, pc := s.pc + 2 }) ∧
    (encode (.ldStVx x) = 0xF018 ||| xBits x ∧
      exec (.ldStVx x) s = .next { s with st := s.readV x, pc := s.pc + 2 }) ∧
    (s.status = .running →
      (s.Fetches (.ldVxDt x) → ∃ t, step s = .next t ∧ t.readV x = s.dt ∧ t.dt.toNat = s.dt.toNat - 1) ∧
      (s.Fetches (.ldDtVx x) → ∃ t, step s = .next t ∧ t.dt.toNat = (s.readV x).toNat - 1) ∧
      (s.Fetches (.ldStVx x) → ∃ t, step s = .next t ∧ t.st.toNat = (s.readV x).toNat - 1 ∧
        (t.tone = true ↔ (s.readV x).toNat = 1)))

/-! ### The whole machine -/

/-- The halt idiom (R88, the spec's decision D26): at a `JP` to itself every number of steps leaves all state
unchanged except that the timers count down to 0 (and `TONE` and the `rand` port follow the steps). -/
def Obligations.SelfJumpOnlyCountsTimersDown : Prop :=
  ∀ (n : Nat) (s : State), s.AtSelfJump →
    ∃ t, Host.Core.run core n s = .next t ∧
      t.dt.toNat = s.dt.toNat - n ∧ t.st.toNat = s.st.toNat - n ∧
      t = { s with dt := t.dt, st := t.st, tone := t.tone, randPort := t.randPort }

/-- R88, the spec's decision D26: in a final state every number of steps keeps it final and changes nothing at all but
`TONE`, which the steps leave at 0, and the `rand` port. -/
def Obligations.FinalStatesStayFinal : Prop :=
  ∀ (n : Nat) (s : State), s.Final →
    ∃ t, Host.Core.run core n s = .next t ∧ t.Final ∧ t = { s with tone := t.tone, randPort := t.randPort } ∧
      (0 < n → t.tone = false)

/-- A run that is RUNNING at its end was RUNNING after each of its steps: no step leaves a fault (R208). -/
def Obligations.SafeRunsAreSafeThroughout : Prop :=
  ∀ (n m : Nat) (s : State), SafeRun n s → m ≤ n → SafeRun m s

/-- R11: only 8xy4 to 8xyE and Dxyn write VF as a side effect; no other instruction changes VF unless its `x` field is
15. -/
def Obligations.OnlyFlagInstructionsWriteVf : Prop :=
  ∀ (i : Instr) (s t : State), exec i s = .next t → t.readV 15 ≠ s.readV 15 →
    (∃ x y, i = .addVxVy x y ∨ i = .subVxVy x y ∨ i = .shrVx x y ∨ i = .subnVxVy x y ∨ i = .shlVx x y) ∨
    (∃ x y n, i = .drw x y n) ∨
    (∃ kk, i = .ldVxKk 15 kk ∨ i = .addVxKk 15 kk ∨ i = .rnd 15 kk) ∨
    (∃ y, i = .ldVxVy 15 y ∨ i = .orVxVy 15 y ∨ i = .andVxVy 15 y ∨ i = .xorVxVy 15 y) ∨
    i = .ldVxDt 15 ∨ i = .ldVxK 15 ∨ i = .ldVxMem 15

/-- Which instructions change which state (the `written by` column of 10_state.md §1): no other instruction changes
it, in any state; a general register only by an instruction that names it. The keys and the `rand` port are changed by
none. (`pc` is written by every instruction: PcAfterEachInstruction.) -/
def Obligations.EachStateIsWrittenOnlyByItsInstructions : Prop :=
  ∀ (i : Instr) (s t : State), exec i s = .next t →
    t.key = s.key ∧ t.randPort = s.randPort ∧
    (∀ r, t.readV r ≠ s.readV r → MayWriteRegister i r) ∧
    (t.index ≠ s.index → (∃ nnn, i = .ldI nnn) ∨ ∃ x, i = .addIVx x ∨ i = .ldFVx x) ∧
    (t.dt ≠ s.dt → ∃ x, i = .ldDtVx x) ∧
    (t.st ≠ s.st → ∃ x, i = .ldStVx x) ∧
    (t.stack ≠ s.stack → ∃ nnn, i = .call nnn) ∧
    (t.sp ≠ s.sp → i = .ret ∨ ∃ nnn, i = .call nnn) ∧
    (t.fb ≠ s.fb → i = .cls ∨ ∃ x y n, i = .drw x y n) ∧
    (t.mem ≠ s.mem → ∃ x, i = .ldBVx x ∨ i = .ldMemVx x) ∧
    (t.status ≠ s.status ∨ t.faultRec ≠ s.faultRec ∨ t.tone ≠ s.tone →
      t.status = .faulted ∧ executeCause i s ≠ none)

/-- The invariant holds after reset. -/
def Obligations.InvariantHoldsAtReset : Prop := State.reset.Inv

/-- Every step keeps the invariant, from every state that has it. -/
def Obligations.EveryStepKeepsTheInvariant : Prop :=
  ∀ s t : State, s.Inv → step s = .next t → t.Inv

/-- Every sequence of host transactions keeps the invariant: loads, key changes, resets and steps with any `rand`. -/
def Obligations.EveryTransactionKeepsTheInvariant : Prop :=
  ∀ (cs : List Transaction) (s : State), s.Inv → ∃ t, transactAll cs s = .next t ∧ t.Inv

/-! ### Reset and the host's ports -/

/-- R230: the state after `reset`, whatever the state before it. All rows but `MEM` and `pc` are the spec's decisions
D2, D6, D23, D25. -/
def Obligations.ResetPutsTheCoreInItsResetState : Prop :=
  ∀ s : State, ∃ t, transact .reset s = .next t ∧
    (∀ (a : Nat) (h : a < 80), t.mem.get a = Config.fontTable[a]) ∧
    (∀ a, 80 ≤ a → a < 4096 → t.mem.get a = 0) ∧
    t.pc = 512 ∧ (∀ r, t.readV r = 0) ∧ t.index = 0 ∧ t.sp.val = 0 ∧ (∀ k : Fin 16, t.stack[k] = 0) ∧
    t.dt = 0 ∧ t.st = 0 ∧ (∀ k : Fin 16, t.key[k] = false) ∧ (∀ p, p < 2048 → t.fb.pixel p = false) ∧
    t.status = .running ∧ t.faultRec = ⟨.none, 0, 0, 0⟩ ∧ t.tone = false

/-- R232, derived by the spec: the state straight after reset is not runnable: its first step fetches `0x0000` and
raises UnimplementedInstruction. -/
def Obligations.FirstStepAfterResetFaults : Prop :=
  State.reset.wordAtPc = 0x0000 ∧ ∃ t, step State.reset = .next t ∧ t.status = .faulted ∧
    t.faultRec = ⟨.unimplementedInstruction, 0x200, 0x0000, 0⟩

/-- R51 (the spec's decision D19): `load_program` writes the bytes from 512 up and nothing else, or, over 3584 bytes,
fails and changes nothing. -/
def Obligations.LoadProgramWritesOnlyTheProgram : Prop :=
  ∀ (s : State) (bytes : List Byte), s.mem.wf →
    (bytes.length > 3584 → s.loadProgram bytes = (.capacityExceeded, s)) ∧
    (bytes.length ≤ 3584 → ∃ t, s.loadProgram bytes = (.ok, t) ∧
      (∀ (k : Nat) (h : k < bytes.length), t.mem.get (512 + k) = bytes[k]) ∧
      (∀ a, a < 512 ∨ 512 + bytes.length ≤ a → t.mem.get a = s.mem.get a) ∧
      t = { s with mem := t.mem })

/-- R32 (the spec's decisions D21, D28): `set_key` sets one key flag and nothing else, in the FAULTED state too. -/
def Obligations.SetKeySetsOneKey : Prop :=
  ∀ (s : State) (index : Nibble) (pressed : Bool), ∃ t, transact (.setKey index pressed) s = .next t ∧
    (∀ k : Nibble, t.keyDown k = if k = index then pressed else s.keyDown k) ∧ t = { s with key := t.key }

/-- R33 in the order of R26: the `framebuffer` port shows all 2048 pixels, `FB[cy * 64 + cx]` being column `cx` of row
`cy`; that the pixel is bit `cx` of the row's bit vector is the model's choice (log entry 8). -/
def Obligations.FramebufferPortShowsEveryPixel : Prop :=
  ∀ s : State, s.framebufferPort.length = 2048 ∧
    ∀ (cx : Fin 64) (cy : Fin 32),
      s.framebufferPort[cy.val * 64 + cx.val]? = some (s.fb[cy].getLsbD cx.val)

/-- What the host reads on the ports of R29 and R34 in every state with the invariant: the bit of `STATUS`, the code of
R200 with the rest of the record, all zero exactly while nothing has faulted, and `TONE`. The codes and the layout are
the spec's decisions D22 and D23; how the values are held is log entry 17. -/
def Obligations.PortsShowStatusRecordAndTone : Prop :=
  ∀ s : State, s.Inv →
    (s.statusPort.toNat = if s.status = .running then 0 else 1) ∧
    (s.tonePort.toNat = if s.tone = true then 1 else 0) ∧
    (∃ code, FaultCode s.faultRec.kind code ∧
      s.faultPort = (BitVec.ofNat 3 code, s.faultRec.pc, s.faultRec.op, s.faultRec.addr)) ∧
    (s.status = .running → s.faultPort = (0, 0, 0, 0)) ∧ (s.status = .faulted → s.faultPort.1.toNat ≠ 0)
end

