-- ==== Sys2Proof/Laws/Memory.lean ====
section
/-! SUPPORT. The Memory Unit: a read after a write, the canonical form, and for each checked access the one lemma that
says everything it can do. -/

namespace Sys2Proof.Machine

/-! ### Reads after writes -/

theorem Memory.get_listed (a : Nat) (v : Byte) (rest : Memory) (b : Nat)
    (h : b = a → rest.get b = Memory.unlisted b ∨ v ≠ Memory.unlisted a) :
    (Memory.listed a v rest).get b = if b = a then v else rest.get b := by
  unfold Memory.listed
  by_cases hv : v = Memory.unlisted a
  · rw [if_pos hv]
    by_cases hb : b = a
    · have := (h hb).resolve_right (· hv)
      rw [if_pos hb, this, hb, hv]
    · rw [if_neg hb]
  · rw [if_neg hv, Memory.get]

/-- An address below every listed one reads as unlisted. -/
theorem Memory.get_eq_unlisted {m : Memory} {a : Nat} (h : ∀ c ∈ m, a ≠ c.1) : m.get a = Memory.unlisted a := by
  induction m with
  | nil => rfl
  | cons c rest ih =>
    obtain ⟨b, w⟩ := c
    rw [Memory.get, if_neg (h (b, w) List.mem_cons_self)]
    exact ih fun c hc => h c (List.mem_cons_of_mem _ hc)

/-- A write changes the byte written and no other. -/
theorem Memory.get_put {m : Memory} (hm : m.Pairwise (fun c d => c.1 < d.1)) (a : Nat) (v : Byte) (b : Nat) :
    (m.put a v).get b = if b = a then v else m.get b := by
  induction m with
  | nil => rw [Memory.put]; exact Memory.get_listed a v [] b fun _ => .inl rfl
  | cons c rest ih =>
    obtain ⟨k, w⟩ := c
    rw [List.pairwise_cons] at hm
    have hlt : ∀ d ∈ rest, k < d.1 := fun d hd => hm.1 d hd
    rw [Memory.put]
    split
    · next h =>
      apply Memory.get_listed
      intro hb
      left
      apply Memory.get_eq_unlisted
      intro c hc
      rcases List.mem_cons.1 hc with rfl | hc
      · simp only; omega
      · have := hlt c hc; omega
    · next h =>
      split
      · next hk =>
        subst hk
        rw [Memory.get_listed]
        · by_cases hb : b = a
          · simp [hb]
          · simp [Memory.get, hb]
        · intro hb
          left
          apply Memory.get_eq_unlisted
          intro c hc
          have := hlt c hc; omega
      · next hk =>
        rw [Memory.get, Memory.get, ih hm.2]
        by_cases hb : b = k
        · simp [hb, Ne.symm hk]
        · simp [hb]

/-! ### The canonical form -/

theorem Memory.mem_listed {a : Nat} {v : Byte} {rest : Memory} {c : Host.Cell} (h : c ∈ Memory.listed a v rest) :
    (c = (a, v) ∧ v ≠ Memory.unlisted a) ∨ c ∈ rest := by
  unfold Memory.listed at h
  split at h
  · exact .inr h
  · next hv => exact (List.mem_cons.1 h).imp_left fun e => ⟨e, hv⟩

theorem Memory.mem_put {m : Memory} {a : Nat} {v : Byte} {c : Host.Cell} (h : c ∈ m.put a v) :
    (c = (a, v) ∧ v ≠ Memory.unlisted a) ∨ c ∈ m := by
  induction m with
  | nil => simpa using Memory.mem_listed h
  | cons d rest ih =>
    obtain ⟨k, w⟩ := d
    rw [Memory.put] at h
    split at h
    · exact Memory.mem_listed h
    · split at h
      · exact (Memory.mem_listed h).imp_right (List.mem_cons_of_mem _)
      · rcases List.mem_cons.1 h with rfl | h
        · exact .inr List.mem_cons_self
        · exact (ih h).imp_right (List.mem_cons_of_mem _)

theorem Memory.pairwise_listed {a : Nat} {v : Byte} {rest : Memory} (hr : rest.Pairwise (fun c d => c.1 < d.1))
    (h : ∀ c ∈ rest, a < c.1) : (Memory.listed a v rest).Pairwise (fun c d => c.1 < d.1) := by
  unfold Memory.listed
  split
  · exact hr
  · exact List.pairwise_cons.2 ⟨h, hr⟩

theorem Memory.pairwise_put {m : Memory} (hm : m.Pairwise (fun c d => c.1 < d.1)) (a : Nat) (v : Byte) :
    (m.put a v).Pairwise (fun c d => c.1 < d.1) := by
  induction m with
  | nil => exact Memory.pairwise_listed .nil (by simp)
  | cons d rest ih =>
    obtain ⟨k, w⟩ := d
    have hp := List.pairwise_cons.1 hm
    rw [Memory.put]
    split
    · next h =>
      refine Memory.pairwise_listed hm fun c hc => ?_
      rcases List.mem_cons.1 hc with rfl | hc
      · exact h
      · exact Nat.lt_trans h (hp.1 c hc)
    · split
      · next hk => exact Memory.pairwise_listed hp.2 fun c hc => hk ▸ hp.1 c hc
      · next h hk =>
        refine List.pairwise_cons.2 ⟨fun c hc => ?_, ih hp.2⟩
        rcases Memory.mem_put hc with ⟨rfl, -⟩ | hc
        · simp only; omega
        · exact hp.1 c hc

/-- A write inside the store keeps the canonical form. -/
theorem Memory.wf_put {m : Memory} (hm : m.wf) {a : Nat} (ha : a < 4096) (v : Byte) : (m.put a v).wf := by
  refine ⟨Memory.pairwise_put hm.1 a v, fun c hc => ?_⟩
  rcases Memory.mem_put hc with ⟨rfl, hv⟩ | hc
  · exact ⟨ha, hv⟩
  · exact hm.2 c hc

theorem Memory.pairwise_putMany {m : Memory} (hm : m.Pairwise (fun c d => c.1 < d.1)) (a : Nat) (vs : List Byte) :
    (m.putMany a vs).Pairwise (fun c d => c.1 < d.1) := by
  induction vs generalizing m a with
  | nil => exact hm
  | cons v vs ih => exact ih (Memory.pairwise_put hm a v) (a + 1)

theorem Memory.wf_putMany {m : Memory} (hm : m.wf) {a : Nat} {vs : List Byte} (ha : a + vs.length ≤ 4096) :
    (m.putMany a vs).wf := by
  induction vs generalizing m a with
  | nil => exact hm
  | cons v vs ih =>
    simp only [List.length_cons] at ha
    exact ih (Memory.wf_put hm (by omega) v) (by omega)

/-- What a byte reads as after a row of writes: the value written where there is one, else as before. -/
theorem Memory.get_putMany {m : Memory} (hm : m.Pairwise (fun c d => c.1 < d.1)) (a : Nat) (vs : List Byte) (b : Nat) :
    (m.putMany a vs).get b = if h : a ≤ b ∧ b - a < vs.length then vs[b - a]'h.2 else m.get b := by
  induction vs generalizing m a with
  | nil => simp [Memory.putMany]
  | cons v vs ih =>
    rw [Memory.putMany, ih (Memory.pairwise_put hm a v), Memory.get_put hm]
    by_cases hb : b = a
    · subst hb; simp
    · by_cases hlt : a ≤ b
      · obtain ⟨k, rfl⟩ : ∃ k, b = a + 1 + k := ⟨b - (a + 1), by omega⟩
        have e1 : a + 1 + k - a = k + 1 := by omega
        have e2 : a + 1 + k - (a + 1) = k := by omega
        simp [e1, e2, hb, show a ≤ a + 1 + k by omega]
      · rw [dif_neg (by omega), dif_neg (by omega), if_neg hb]

/-! ### The checked accesses -/

theorem firstOutside_eq_none {a n : Nat} : firstOutside a n = none ↔ n = 0 ∨ a + n ≤ 4096 := by
  unfold firstOutside
  split
  · next h => simp only [Config.memSize] at h; simp; omega
  · next h => simp only [Config.memSize] at h; simp; omega

theorem firstOutside_eq_some {a n bad : Nat} :
    firstOutside a n = some bad ↔ (0 < n ∧ 4096 < a + n) ∧ bad = max a 4096 := by
  unfold firstOutside
  split
  · next h =>
    simp only [Config.memSize] at h
    simp only [Config.memSize, Option.some.injEq]
    constructor
    · rintro rfl; exact ⟨by omega, rfl⟩
    · rintro ⟨-, rfl⟩; rfl
  · next h => simp only [Config.memSize] at h; simp; omega

@[simp] theorem Memory.length_getMany (m : Memory) (a n : Nat) : (m.getMany a n).length = n := by
  induction n generalizing a with
  | zero => rfl
  | succ n ih => simp [Memory.getMany, ih]

@[simp] theorem Memory.getElem_getMany (m : Memory) (a n k : Nat) (h : k < (m.getMany a n).length) :
    (m.getMany a n)[k] = m.get (a + k) := by
  induction n generalizing a k with
  | zero => simp at h
  | succ n ih =>
    cases k with
    | zero => simp [Memory.getMany]
    | succ k =>
      simp only [Memory.getMany, List.getElem_cons_succ]
      rw [ih]
      congr 1
      omega

/-- Everything `loadBytes` can do (R43): read the bytes when all of them are in the store, else name the lowest
address that is not. -/
theorem loadBytes_spec (m : Memory) (a n : Nat) :
    loadBytes m a n = if n = 0 ∨ a + n ≤ 4096 then .ok (m.getMany a n) else .error (max a 4096) := by
  unfold loadBytes
  split
  · next bad h => obtain ⟨h, rfl⟩ := firstOutside_eq_some.1 h; rw [if_neg (by omega)]
  · next h => rw [if_pos (firstOutside_eq_none.1 h)]

/-- Everything `storeBytes` can do (R44). -/
theorem storeBytes_spec (m : Memory) (a : Nat) (vs : List Byte) :
    storeBytes m a vs = if vs.length = 0 ∨ a + vs.length ≤ 4096 then .ok (m.putMany a vs) else .error (max a 4096) := by
  unfold storeBytes
  split
  · next bad h => obtain ⟨h, rfl⟩ := firstOutside_eq_some.1 h; rw [if_neg (by omega)]
  · next h => rw [if_pos (firstOutside_eq_none.1 h)]

/-- Everything the instruction fetch can do (R45). -/
theorem loadWord_spec (m : Memory) (a : Nat) :
    loadWord m a = if a ≤ 4094 then .ok (m.get a ++ m.get (a + 1)) else .error (max a 4096) := by
  unfold loadWord
  split
  · next bad h => obtain ⟨h, rfl⟩ := firstOutside_eq_some.1 h; rw [if_neg (by omega)]
  · next h => rw [if_pos (by have := firstOutside_eq_none.1 h; omega)]

theorem loadBytes_ok {m : Memory} {a n : Nat} (h : n = 0 ∨ a + n ≤ 4096) : loadBytes m a n = .ok (m.getMany a n) := by
  rw [loadBytes_spec, if_pos h]

theorem loadBytes_error {m : Memory} {a n : Nat} (h : 0 < n) (h' : 4096 < a + n) :
    loadBytes m a n = .error (max a 4096) := by
  rw [loadBytes_spec, if_neg (by omega)]

theorem storeBytes_ok {m : Memory} {a : Nat} {vs : List Byte} (h : a + vs.length ≤ 4096) :
    storeBytes m a vs = .ok (m.putMany a vs) := by
  rw [storeBytes_spec, if_pos (.inr h)]

theorem storeBytes_error {m : Memory} {a : Nat} {vs : List Byte} (h : 0 < vs.length) (h' : 4096 < a + vs.length) :
    storeBytes m a vs = .error (max a 4096) := by
  rw [storeBytes_spec, if_neg (by omega)]

/-- A store that succeeds keeps the canonical form. -/
theorem storeBytes_wf {m m' : Memory} (hm : m.wf) {a : Nat} {vs : List Byte} (h : storeBytes m a vs = .ok m') :
    m'.wf := by
  rw [storeBytes_spec] at h
  split at h
  · next hc =>
    cases h
    rcases hc with h0 | hc
    · cases List.eq_nil_of_length_eq_zero h0; exact hm
    · exact Memory.wf_putMany hm hc
  · cases h

end Sys2Proof.Machine
end

