-- ==== Sys2Proof/Laws/State.lean ====
section
/-! SUPPORT. Beside State: one lemma per field per update, so that no proof unfolds a record update; and what a read of
one register sees after a write. -/

namespace Sys2Proof.Machine

variable (s : State)

/-! #### writeV -/

@[simp] theorem State.writeV_v (r : Nibble) (b : Byte) : (s.writeV r b).v = s.v.set r.toNat b := rfl
@[simp] theorem State.writeV_index (r : Nibble) (b : Byte) : (s.writeV r b).index = s.index := rfl
@[simp] theorem State.writeV_pc (r : Nibble) (b : Byte) : (s.writeV r b).pc = s.pc := rfl
@[simp] theorem State.writeV_stack (r : Nibble) (b : Byte) : (s.writeV r b).stack = s.stack := rfl
@[simp] theorem State.writeV_sp (r : Nibble) (b : Byte) : (s.writeV r b).sp = s.sp := rfl
@[simp] theorem State.writeV_dt (r : Nibble) (b : Byte) : (s.writeV r b).dt = s.dt := rfl
@[simp] theorem State.writeV_st (r : Nibble) (b : Byte) : (s.writeV r b).st = s.st := rfl
@[simp] theorem State.writeV_key (r : Nibble) (b : Byte) : (s.writeV r b).key = s.key := rfl
@[simp] theorem State.writeV_fb (r : Nibble) (b : Byte) : (s.writeV r b).fb = s.fb := rfl
@[simp] theorem State.writeV_mem (r : Nibble) (b : Byte) : (s.writeV r b).mem = s.mem := rfl
@[simp] theorem State.writeV_status (r : Nibble) (b : Byte) : (s.writeV r b).status = s.status := rfl
@[simp] theorem State.writeV_faultRec (r : Nibble) (b : Byte) : (s.writeV r b).faultRec = s.faultRec := rfl
@[simp] theorem State.writeV_tone (r : Nibble) (b : Byte) : (s.writeV r b).tone = s.tone := rfl
@[simp] theorem State.writeV_randPort (r : Nibble) (b : Byte) : (s.writeV r b).randPort = s.randPort := rfl

/-! #### setPc -/

@[simp] theorem State.setPc_v (w : Word) : (s.setPc w).v = s.v := rfl
@[simp] theorem State.setPc_index (w : Word) : (s.setPc w).index = s.index := rfl
@[simp] theorem State.setPc_pc (w : Word) : (s.setPc w).pc = w := rfl
@[simp] theorem State.setPc_stack (w : Word) : (s.setPc w).stack = s.stack := rfl
@[simp] theorem State.setPc_sp (w : Word) : (s.setPc w).sp = s.sp := rfl
@[simp] theorem State.setPc_dt (w : Word) : (s.setPc w).dt = s.dt := rfl
@[simp] theorem State.setPc_st (w : Word) : (s.setPc w).st = s.st := rfl
@[simp] theorem State.setPc_key (w : Word) : (s.setPc w).key = s.key := rfl
@[simp] theorem State.setPc_fb (w : Word) : (s.setPc w).fb = s.fb := rfl
@[simp] theorem State.setPc_mem (w : Word) : (s.setPc w).mem = s.mem := rfl
@[simp] theorem State.setPc_status (w : Word) : (s.setPc w).status = s.status := rfl
@[simp] theorem State.setPc_faultRec (w : Word) : (s.setPc w).faultRec = s.faultRec := rfl
@[simp] theorem State.setPc_tone (w : Word) : (s.setPc w).tone = s.tone := rfl
@[simp] theorem State.setPc_randPort (w : Word) : (s.setPc w).randPort = s.randPort := rfl

/-! #### setIndex -/

@[simp] theorem State.setIndex_v (w : Word) : (s.setIndex w).v = s.v := rfl
@[simp] theorem State.setIndex_index (w : Word) : (s.setIndex w).index = w := rfl
@[simp] theorem State.setIndex_pc (w : Word) : (s.setIndex w).pc = s.pc := rfl
@[simp] theorem State.setIndex_stack (w : Word) : (s.setIndex w).stack = s.stack := rfl
@[simp] theorem State.setIndex_sp (w : Word) : (s.setIndex w).sp = s.sp := rfl
@[simp] theorem State.setIndex_dt (w : Word) : (s.setIndex w).dt = s.dt := rfl
@[simp] theorem State.setIndex_st (w : Word) : (s.setIndex w).st = s.st := rfl
@[simp] theorem State.setIndex_key (w : Word) : (s.setIndex w).key = s.key := rfl
@[simp] theorem State.setIndex_fb (w : Word) : (s.setIndex w).fb = s.fb := rfl
@[simp] theorem State.setIndex_mem (w : Word) : (s.setIndex w).mem = s.mem := rfl
@[simp] theorem State.setIndex_status (w : Word) : (s.setIndex w).status = s.status := rfl
@[simp] theorem State.setIndex_faultRec (w : Word) : (s.setIndex w).faultRec = s.faultRec := rfl
@[simp] theorem State.setIndex_tone (w : Word) : (s.setIndex w).tone = s.tone := rfl
@[simp] theorem State.setIndex_randPort (w : Word) : (s.setIndex w).randPort = s.randPort := rfl

/-! #### setDt -/

@[simp] theorem State.setDt_v (b : Byte) : (s.setDt b).v = s.v := rfl
@[simp] theorem State.setDt_index (b : Byte) : (s.setDt b).index = s.index := rfl
@[simp] theorem State.setDt_pc (b : Byte) : (s.setDt b).pc = s.pc := rfl
@[simp] theorem State.setDt_stack (b : Byte) : (s.setDt b).stack = s.stack := rfl
@[simp] theorem State.setDt_sp (b : Byte) : (s.setDt b).sp = s.sp := rfl
@[simp] theorem State.setDt_dt (b : Byte) : (s.setDt b).dt = b := rfl
@[simp] theorem State.setDt_st (b : Byte) : (s.setDt b).st = s.st := rfl
@[simp] theorem State.setDt_key (b : Byte) : (s.setDt b).key = s.key := rfl
@[simp] theorem State.setDt_fb (b : Byte) : (s.setDt b).fb = s.fb := rfl
@[simp] theorem State.setDt_mem (b : Byte) : (s.setDt b).mem = s.mem := rfl
@[simp] theorem State.setDt_status (b : Byte) : (s.setDt b).status = s.status := rfl
@[simp] theorem State.setDt_faultRec (b : Byte) : (s.setDt b).faultRec = s.faultRec := rfl
@[simp] theorem State.setDt_tone (b : Byte) : (s.setDt b).tone = s.tone := rfl
@[simp] theorem State.setDt_randPort (b : Byte) : (s.setDt b).randPort = s.randPort := rfl

/-! #### setSt -/

@[simp] theorem State.setSt_v (b : Byte) : (s.setSt b).v = s.v := rfl
@[simp] theorem State.setSt_index (b : Byte) : (s.setSt b).index = s.index := rfl
@[simp] theorem State.setSt_pc (b : Byte) : (s.setSt b).pc = s.pc := rfl
@[simp] theorem State.setSt_stack (b : Byte) : (s.setSt b).stack = s.stack := rfl
@[simp] theorem State.setSt_sp (b : Byte) : (s.setSt b).sp = s.sp := rfl
@[simp] theorem State.setSt_dt (b : Byte) : (s.setSt b).dt = s.dt := rfl
@[simp] theorem State.setSt_st (b : Byte) : (s.setSt b).st = b := rfl
@[simp] theorem State.setSt_key (b : Byte) : (s.setSt b).key = s.key := rfl
@[simp] theorem State.setSt_fb (b : Byte) : (s.setSt b).fb = s.fb := rfl
@[simp] theorem State.setSt_mem (b : Byte) : (s.setSt b).mem = s.mem := rfl
@[simp] theorem State.setSt_status (b : Byte) : (s.setSt b).status = s.status := rfl
@[simp] theorem State.setSt_faultRec (b : Byte) : (s.setSt b).faultRec = s.faultRec := rfl
@[simp] theorem State.setSt_tone (b : Byte) : (s.setSt b).tone = s.tone := rfl
@[simp] theorem State.setSt_randPort (b : Byte) : (s.setSt b).randPort = s.randPort := rfl

/-! #### setMem -/

@[simp] theorem State.setMem_v (m : Memory) : (s.setMem m).v = s.v := rfl
@[simp] theorem State.setMem_index (m : Memory) : (s.setMem m).index = s.index := rfl
@[simp] theorem State.setMem_pc (m : Memory) : (s.setMem m).pc = s.pc := rfl
@[simp] theorem State.setMem_stack (m : Memory) : (s.setMem m).stack = s.stack := rfl
@[simp] theorem State.setMem_sp (m : Memory) : (s.setMem m).sp = s.sp := rfl
@[simp] theorem State.setMem_dt (m : Memory) : (s.setMem m).dt = s.dt := rfl
@[simp] theorem State.setMem_st (m : Memory) : (s.setMem m).st = s.st := rfl
@[simp] theorem State.setMem_key (m : Memory) : (s.setMem m).key = s.key := rfl
@[simp] theorem State.setMem_fb (m : Memory) : (s.setMem m).fb = s.fb := rfl
@[simp] theorem State.setMem_mem (m : Memory) : (s.setMem m).mem = m := rfl
@[simp] theorem State.setMem_status (m : Memory) : (s.setMem m).status = s.status := rfl
@[simp] theorem State.setMem_faultRec (m : Memory) : (s.setMem m).faultRec = s.faultRec := rfl
@[simp] theorem State.setMem_tone (m : Memory) : (s.setMem m).tone = s.tone := rfl
@[simp] theorem State.setMem_randPort (m : Memory) : (s.setMem m).randPort = s.randPort := rfl

/-! #### setFb -/

@[simp] theorem State.setFb_v (fb : Framebuffer) : (s.setFb fb).v = s.v := rfl
@[simp] theorem State.setFb_index (fb : Framebuffer) : (s.setFb fb).index = s.index := rfl
@[simp] theorem State.setFb_pc (fb : Framebuffer) : (s.setFb fb).pc = s.pc := rfl
@[simp] theorem State.setFb_stack (fb : Framebuffer) : (s.setFb fb).stack = s.stack := rfl
@[simp] theorem State.setFb_sp (fb : Framebuffer) : (s.setFb fb).sp = s.sp := rfl
@[simp] theorem State.setFb_dt (fb : Framebuffer) : (s.setFb fb).dt = s.dt := rfl
@[simp] theorem State.setFb_st (fb : Framebuffer) : (s.setFb fb).st = s.st := rfl
@[simp] theorem State.setFb_key (fb : Framebuffer) : (s.setFb fb).key = s.key := rfl
@[simp] theorem State.setFb_fb (fb : Framebuffer) : (s.setFb fb).fb = fb := rfl
@[simp] theorem State.setFb_mem (fb : Framebuffer) : (s.setFb fb).mem = s.mem := rfl
@[simp] theorem State.setFb_status (fb : Framebuffer) : (s.setFb fb).status = s.status := rfl
@[simp] theorem State.setFb_faultRec (fb : Framebuffer) : (s.setFb fb).faultRec = s.faultRec := rfl
@[simp] theorem State.setFb_tone (fb : Framebuffer) : (s.setFb fb).tone = s.tone := rfl
@[simp] theorem State.setFb_randPort (fb : Framebuffer) : (s.setFb fb).randPort = s.randPort := rfl

/-! #### takeFault -/

@[simp] theorem State.takeFault_v (k : FaultKind) (op : Word) (info : Nat) : (s.takeFault k op info).v = s.v := rfl
@[simp] theorem State.takeFault_index (k : FaultKind) (op : Word) (info : Nat) : (s.takeFault k op info).index = s.index := rfl
@[simp] theorem State.takeFault_pc (k : FaultKind) (op : Word) (info : Nat) : (s.takeFault k op info).pc = s.pc := rfl
@[simp] theorem State.takeFault_stack (k : FaultKind) (op : Word) (info : Nat) : (s.takeFault k op info).stack = s.stack := rfl
@[simp] theorem State.takeFault_sp (k : FaultKind) (op : Word) (info : Nat) : (s.takeFault k op info).sp = s.sp := rfl
@[simp] theorem State.takeFault_dt (k : FaultKind) (op : Word) (info : Nat) : (s.takeFault k op info).dt = s.dt := rfl
@[simp] theorem State.takeFault_st (k : FaultKind) (op : Word) (info : Nat) : (s.takeFault k op info).st = s.st := rfl
@[simp] theorem State.takeFault_key (k : FaultKind) (op : Word) (info : Nat) : (s.takeFault k op info).key = s.key := rfl
@[simp] theorem State.takeFault_fb (k : FaultKind) (op : Word) (info : Nat) : (s.takeFault k op info).fb = s.fb := rfl
@[simp] theorem State.takeFault_mem (k : FaultKind) (op : Word) (info : Nat) : (s.takeFault k op info).mem = s.mem := rfl
@[simp] theorem State.takeFault_status (k : FaultKind) (op : Word) (info : Nat) : (s.takeFault k op info).status = .faulted := rfl
@[simp] theorem State.takeFault_faultRec (k : FaultKind) (op : Word) (info : Nat) : (s.takeFault k op info).faultRec = ⟨k, s.pc, op, BitVec.ofNat 17 info⟩ := rfl
@[simp] theorem State.takeFault_tone (k : FaultKind) (op : Word) (info : Nat) : (s.takeFault k op info).tone = false := rfl
@[simp] theorem State.takeFault_randPort (k : FaultKind) (op : Word) (info : Nat) : (s.takeFault k op info).randPort = s.randPort := rfl

/-! #### tick -/

@[simp] theorem State.tick_v : (s.tick).v = s.v := rfl
@[simp] theorem State.tick_index : (s.tick).index = s.index := rfl
@[simp] theorem State.tick_pc : (s.tick).pc = s.pc := rfl
@[simp] theorem State.tick_stack : (s.tick).stack = s.stack := rfl
@[simp] theorem State.tick_sp : (s.tick).sp = s.sp := rfl
@[simp] theorem State.tick_dt : (s.tick).dt = countDown s.dt := rfl
@[simp] theorem State.tick_st : (s.tick).st = countDown s.st := rfl
@[simp] theorem State.tick_key : (s.tick).key = s.key := rfl
@[simp] theorem State.tick_fb : (s.tick).fb = s.fb := rfl
@[simp] theorem State.tick_mem : (s.tick).mem = s.mem := rfl
@[simp] theorem State.tick_status : (s.tick).status = s.status := rfl
@[simp] theorem State.tick_faultRec : (s.tick).faultRec = s.faultRec := rfl
@[simp] theorem State.tick_tone : (s.tick).tone = decide (s.st = 1) := rfl
@[simp] theorem State.tick_randPort : (s.tick).randPort = s.randPort := rfl

/-! #### setKey -/

@[simp] theorem State.setKey_v (k : Nibble) (c : Bool) : (s.setKey k c).v = s.v := rfl
@[simp] theorem State.setKey_index (k : Nibble) (c : Bool) : (s.setKey k c).index = s.index := rfl
@[simp] theorem State.setKey_pc (k : Nibble) (c : Bool) : (s.setKey k c).pc = s.pc := rfl
@[simp] theorem State.setKey_stack (k : Nibble) (c : Bool) : (s.setKey k c).stack = s.stack := rfl
@[simp] theorem State.setKey_sp (k : Nibble) (c : Bool) : (s.setKey k c).sp = s.sp := rfl
@[simp] theorem State.setKey_dt (k : Nibble) (c : Bool) : (s.setKey k c).dt = s.dt := rfl
@[simp] theorem State.setKey_st (k : Nibble) (c : Bool) : (s.setKey k c).st = s.st := rfl
@[simp] theorem State.setKey_key (k : Nibble) (c : Bool) : (s.setKey k c).key = s.key.set k.toNat c := rfl
@[simp] theorem State.setKey_fb (k : Nibble) (c : Bool) : (s.setKey k c).fb = s.fb := rfl
@[simp] theorem State.setKey_mem (k : Nibble) (c : Bool) : (s.setKey k c).mem = s.mem := rfl
@[simp] theorem State.setKey_status (k : Nibble) (c : Bool) : (s.setKey k c).status = s.status := rfl
@[simp] theorem State.setKey_faultRec (k : Nibble) (c : Bool) : (s.setKey k c).faultRec = s.faultRec := rfl
@[simp] theorem State.setKey_tone (k : Nibble) (c : Bool) : (s.setKey k c).tone = s.tone := rfl
@[simp] theorem State.setKey_randPort (k : Nibble) (c : Bool) : (s.setKey k c).randPort = s.randPort := rfl

/-! #### withRand -/

@[simp] theorem State.withRand_v (b : Byte) : (s.withRand b).v = s.v := rfl
@[simp] theorem State.withRand_index (b : Byte) : (s.withRand b).index = s.index := rfl
@[simp] theorem State.withRand_pc (b : Byte) : (s.withRand b).pc = s.pc := rfl
@[simp] theorem State.withRand_stack (b : Byte) : (s.withRand b).stack = s.stack := rfl
@[simp] theorem State.withRand_sp (b : Byte) : (s.withRand b).sp = s.sp := rfl
@[simp] theorem State.withRand_dt (b : Byte) : (s.withRand b).dt = s.dt := rfl
@[simp] theorem State.withRand_st (b : Byte) : (s.withRand b).st = s.st := rfl
@[simp] theorem State.withRand_key (b : Byte) : (s.withRand b).key = s.key := rfl
@[simp] theorem State.withRand_fb (b : Byte) : (s.withRand b).fb = s.fb := rfl
@[simp] theorem State.withRand_mem (b : Byte) : (s.withRand b).mem = s.mem := rfl
@[simp] theorem State.withRand_status (b : Byte) : (s.withRand b).status = s.status := rfl
@[simp] theorem State.withRand_faultRec (b : Byte) : (s.withRand b).faultRec = s.faultRec := rfl
@[simp] theorem State.withRand_tone (b : Byte) : (s.withRand b).tone = s.tone := rfl
@[simp] theorem State.withRand_randPort (b : Byte) : (s.withRand b).randPort = ⟨b :: s.randPort.given, s.randPort.drawn⟩ := rfl

/-! #### endStep: what both ends of a step leave alone -/

@[simp] theorem State.endStep_v : s.endStep.v = s.v := by
  unfold State.endStep; split <;> rfl
@[simp] theorem State.endStep_index : s.endStep.index = s.index := by
  unfold State.endStep; split <;> rfl
@[simp] theorem State.endStep_pc : s.endStep.pc = s.pc := by
  unfold State.endStep; split <;> rfl
@[simp] theorem State.endStep_stack : s.endStep.stack = s.stack := by
  unfold State.endStep; split <;> rfl
@[simp] theorem State.endStep_sp : s.endStep.sp = s.sp := by
  unfold State.endStep; split <;> rfl
@[simp] theorem State.endStep_key : s.endStep.key = s.key := by
  unfold State.endStep; split <;> rfl
@[simp] theorem State.endStep_fb : s.endStep.fb = s.fb := by
  unfold State.endStep; split <;> rfl
@[simp] theorem State.endStep_mem : s.endStep.mem = s.mem := by
  unfold State.endStep; split <;> rfl
@[simp] theorem State.endStep_status : s.endStep.status = s.status := by
  unfold State.endStep; split <;> rfl
@[simp] theorem State.endStep_faultRec : s.endStep.faultRec = s.faultRec := by
  unfold State.endStep; split <;> rfl
@[simp] theorem State.endStep_randPort : s.endStep.randPort = s.randPort.sampled := by
  unfold State.endStep; split <;> rfl

theorem State.endStep_of_running (h : s.status = .running) :
    s.endStep = { s.tick with randPort := s.randPort.sampled } := by simp [State.endStep, h]

theorem State.endStep_of_faulted (h : s.status = .faulted) :
    s.endStep = { s with randPort := s.randPort.sampled } := by simp [State.endStep, h]

/-! #### Reading a register after an update -/

@[simp] theorem State.readV_writeV (r q : Nibble) (b : Byte) :
    (s.writeV r b).readV q = if q = r then b else s.readV q := by
  by_cases h : q = r
  · subst h; simp [State.readV]
  · have : r.toNat ≠ q.toNat := fun e => h (BitVec.eq_of_toNat_eq e).symm
    simp [State.readV, h, this]

/-- Two register files are equal when every register reads the same. -/
theorem State.v_ext (t : State) (h : ∀ r, t.readV r = s.readV r) : t.v = s.v := by
  apply Vector.ext
  intro i hi
  have := h (BitVec.ofNat 4 i)
  have e : i % 16 = i := Nat.mod_eq_of_lt hi
  simpa [State.readV, e] using this

@[simp] theorem State.keyDown_setKey (k q : Nibble) (c : Bool) :
    (s.setKey k c).keyDown q = if q = k then c else s.keyDown q := by
  by_cases h : q = k
  · subst h; simp [State.keyDown]
  · have : k.toNat ≠ q.toNat := fun e => h (BitVec.eq_of_toNat_eq e).symm
    simp [State.keyDown, h, this]

@[simp] theorem State.readV_setPc (w : Word) (q : Nibble) : (s.setPc w).readV q = s.readV q := rfl
@[simp] theorem State.readV_setIndex (w : Word) (q : Nibble) : (s.setIndex w).readV q = s.readV q := rfl
@[simp] theorem State.readV_setDt (b : Byte) (q : Nibble) : (s.setDt b).readV q = s.readV q := rfl
@[simp] theorem State.readV_setSt (b : Byte) (q : Nibble) : (s.setSt b).readV q = s.readV q := rfl
@[simp] theorem State.readV_setMem (m : Memory) (q : Nibble) : (s.setMem m).readV q = s.readV q := rfl
@[simp] theorem State.readV_setFb (fb : Framebuffer) (q : Nibble) : (s.setFb fb).readV q = s.readV q := rfl
@[simp] theorem State.readV_takeFault (k : FaultKind) (op : Word) (info : Nat) (q : Nibble) : (s.takeFault k op info).readV q = s.readV q := rfl
@[simp] theorem State.readV_tick (q : Nibble) : (s.tick).readV q = s.readV q := rfl
@[simp] theorem State.readV_setKey (k : Nibble) (c : Bool) (q : Nibble) : (s.setKey k c).readV q = s.readV q := rfl
@[simp] theorem State.readV_withRand (b : Byte) (q : Nibble) : (s.withRand b).readV q = s.readV q := rfl
@[simp] theorem State.readV_endStep (q : Nibble) : s.endStep.readV q = s.readV q := by simp [State.readV]
@[simp] theorem State.keyDown_writeV (r : Nibble) (b : Byte) (q : Nibble) : (s.writeV r b).keyDown q = s.keyDown q := rfl

end Sys2Proof.Machine
end

