-- ==== Sys2Proof/Laws/Ops.lean ====
section
/-! SUPPORT. For each shared operation, the one lemma that says everything it can do; and what one step can do. -/

namespace Sys2Proof.Machine

/-! ### Call stack -/

/-- Everything a push can do (41_control_flow.md R103). -/
theorem State.pushPc_eq_some {s t : State} : s.pushPc = some t ↔
    ∃ h : s.sp.val < 16,
      t = { s with stack := s.stack.set s.sp.val s.pc, sp := ⟨s.sp.val + 1, by omega⟩ } := by
  unfold State.pushPc
  split
  · next h => simp [h, eq_comm]
  · next h => simp [h]

theorem State.pushPc_eq_none {s : State} : s.pushPc = none ↔ s.sp.val = 16 := by
  have := s.sp.isLt
  unfold State.pushPc
  split
  · next h => simp; omega
  · next h => simp; omega

/-- Everything a pop can do (R101). -/
theorem State.pop_eq_some {s t : State} {w : Word} : s.pop = some (w, t) ↔
    ∃ h : 0 < s.sp.val, w = s.stack[s.sp.val - 1] ∧ t = { s with sp := ⟨s.sp.val - 1, by omega⟩ } := by
  unfold State.pop
  split
  · next h => simp [h, eq_comm]
  · next h => simp [h]

theorem State.pop_eq_none {s : State} : s.pop = none ↔ s.sp.val = 0 := by
  unfold State.pop
  split
  · next h => simp; omega
  · next h => simp; omega

/-! ### Registers in a row -/

/-- What a register reads after a row of writes from register `k` on. -/
theorem State.readV_writeFrom (s : State) (k : Nat) (bs : List Byte) (h : k + bs.length ≤ 16) (r : Nibble) :
    (s.writeFrom k bs).readV r =
      if h : k ≤ r.toNat ∧ r.toNat - k < bs.length then bs[r.toNat - k]'h.2 else s.readV r := by
  induction bs generalizing s k with
  | nil => simp [State.writeFrom]
  | cons b bs ih =>
    simp only [List.length_cons] at h
    rw [State.writeFrom, ih _ _ (by omega), State.readV_writeV]
    have hr := r.isLt
    by_cases he : r.toNat = k
    · have : r = BitVec.ofNat 4 k := by apply BitVec.eq_of_toNat_eq; simp; omega
      rw [dif_neg (by omega), if_pos this, dif_pos ⟨by omega, by simp; omega⟩]
      simp [he]
    · have : r ≠ BitVec.ofNat 4 k := by
        intro e; apply he; rw [e]; simp; omega
      by_cases hlt : k ≤ r.toNat
      · obtain ⟨j, hj⟩ : ∃ j, r.toNat = k + 1 + j := ⟨r.toNat - (k + 1), by omega⟩
        have e1 : r.toNat - k = j + 1 := by omega
        have e2 : r.toNat - (k + 1) = j := by omega
        simp [e1, e2, this, hlt, show k + 1 ≤ r.toNat by omega]
      · rw [dif_neg (by omega), dif_neg (by omega), if_neg this]

/-- A row of register writes changes nothing but the registers. -/
theorem State.writeFrom_frame (s : State) (k : Nat) (bs : List Byte) :
    s.writeFrom k bs = { s with v := (s.writeFrom k bs).v } := by
  induction bs generalizing s k with
  | nil => rfl
  | cons b bs ih => rw [State.writeFrom, ih]; rfl

@[simp] theorem State.length_firstRegs (s : State) (x : Nibble) : (s.firstRegs x).length = x.toNat + 1 := by
  simp [State.firstRegs, regCount]

theorem State.getElem_firstRegs (s : State) (x : Nibble) (k : Nat) (h : k < (s.firstRegs x).length) :
    (s.firstRegs x)[k] = s.readV (BitVec.ofNat 4 k) := by
  simp [State.firstRegs]

@[simp] theorem length_decimalDigits (b : Byte) : (decimalDigits b).length = 3 := by simp [decimalDigits]

/-! ### Framebuffer -/

/-- Toggling a pixel changes that pixel and no other (44_display.md R162). -/
theorem Framebuffer.pixel_toggle (fb : Framebuffer) {p q : Nat} (hp : p < 2048) (hq : q < 2048) :
    (fb.toggle p).pixel q = if q = p then !fb.pixel q else fb.pixel q := by
  have hrow : p / 64 < 32 := by omega
  unfold Framebuffer.toggle Framebuffer.pixel
  rw [dif_pos hp, dif_pos hq, dif_pos hq, Vector.getElem_set]
  have hq64 : q % 64 < 64 := by omega
  by_cases he : q = p
  · subst he
    simp [hq64]
  · by_cases hr : p / 64 = q / 64
    · have hne : p % 64 ≠ q % 64 := by omega
      rw [if_pos hr, if_neg he]
      have hz : ((1#64 <<< (p % 64)).getLsbD (q % 64)) = false := by
        simp
        omega
      rw [BitVec.getLsbD_xor, hz, Bool.xor_false]
      simp [hr]
    · rw [if_neg hr, if_neg he]

@[simp] theorem Framebuffer.pixel_clear (p : Nat) : Framebuffer.clear.pixel p = false := by
  unfold Framebuffer.pixel Framebuffer.clear
  split <;> simp

/-- Framebuffers with the same pixels are the same data. -/
theorem Framebuffer.ext {fb fb' : Framebuffer} (h : ∀ p, p < 2048 → fb.pixel p = fb'.pixel p) : fb = fb' := by
  apply Vector.ext
  intro cy hcy
  apply BitVec.eq_of_getLsbD_eq
  intro cx hcx
  have hp : cy * 64 + cx < 2048 := by omega
  have := h (cy * 64 + cx) hp
  have e1 : (cy * 64 + cx) / 64 = cy := by omega
  have e2 : (cy * 64 + cx) % 64 = cx := by omega
  simpa [Framebuffer.pixel, hp, e1, e2] using this

/-! ### Keys -/

/-- Everything a key index can be (45_input_timers.md R170). -/
theorem keyIndex_spec (b : Byte) :
    keyIndex b = if b.toNat > 15 then .error b.toNat else .ok (BitVec.ofNat 4 b.toNat) := rfl

/-- The scan of Fx0A finds nothing exactly when no key is down (R172). -/
theorem State.firstKeyDown_eq_none {s : State} : s.firstKeyDown = none ↔ ∀ k, s.keyDown k = false := by
  unfold State.firstKeyDown
  rw [List.find?_eq_none]
  constructor
  · intro h k
    have := h k.toNat (List.mem_range.2 k.isLt)
    simpa using this
  · intro h k _
    simp [h]

/-- What the scan finds is a key that is down, with no lower one down (R172, decision D13). -/
theorem State.firstKeyDown_eq_some {s : State} {k : Nat} : s.firstKeyDown = some k ↔
    k < 16 ∧ s.keyDown (BitVec.ofNat 4 k) = true ∧ ∀ j, j < k → s.keyDown (BitVec.ofNat 4 j) = false := by
  unfold State.firstKeyDown
  rw [List.find?_range_eq_some]
  simp
  tauto

/-! ### Timers -/

theorem toNat_countDown (b : Byte) : (countDown b).toNat = b.toNat - 1 := by
  unfold countDown
  split
  · next h => subst h; rfl
  · next h =>
    have : b.toNat ≠ 0 := fun e => h (BitVec.eq_of_toNat_eq e)
    have := b.isLt
    rw [BitVec.toNat_sub]
    simp
    omega

/-! ### The step -/

/-- Fetch and decode (40_step_cycle.md R82, R83): everything they can answer. -/
theorem State.fetchInstr_spec (s : State) : s.fetchInstr =
    if s.pc.toNat ≤ 4094 then
      match decode (s.mem.get s.pc.toNat ++ s.mem.get (s.pc.toNat + 1)) with
      | .error _ => .error (s.takeFault .unimplementedInstruction
          (s.mem.get s.pc.toNat ++ s.mem.get (s.pc.toNat + 1)) 0)
      | .ok i => .ok i
    else .error (s.takeFault .outOfBounds 0 (max s.pc.toNat 4096)) := by
  unfold State.fetchInstr
  rw [loadWord_spec]
  by_cases h : s.pc.toNat ≤ 4094
  · cases hd : decode (s.mem.get s.pc.toNat ++ s.mem.get (s.pc.toNat + 1)) <;> simp only [if_pos h, hd]
  · rw [if_neg h, if_neg h]

theorem step_of_faulted {s : State} (h : s.status = .faulted) : step s = .next s := by
  simp [step, stepCycle, h]

/-- Everything a step of a RUNNING machine can do (R80): a fault of the fetch or of the decoder, or an instruction and
the end of the step. -/
theorem step_of_running {s : State} (h : s.status = .running) : step s =
    match s.fetchInstr with
    | .error t => .next t.endStep
    | .ok i => finish (exec i s) := by
  cases hf : s.fetchInstr <;> simp only [step, stepCycle, h, hf]

end Sys2Proof.Machine
end

