-- ==== Sys2Proof/Laws/Display.lean ====
section
/-! SUPPORT. What drawing does, pixel by pixel: one column, the columns of a row, the rows of a sprite. No two
(row, column) pairs of one sprite are the same pixel (44_display.md R164 (b)), so each pixel is toggled at most once. -/

namespace Sys2Proof.Machine

theorem pixelIndex_lt {px cy col : Nat} (h : cy < 32) : pixelIndex px cy col < 2048 := by
  unfold pixelIndex; omega

/-- `d'` is `d` with exactly the pixels in `S` toggled, and a collision where one of them was 1. -/
def Drawing.Toggles (S : Nat → Prop) (d d' : Drawing) : Prop :=
  (∀ p, p < 2048 → (S p → d'.fb.pixel p = !d.fb.pixel p) ∧ (¬ S p → d'.fb.pixel p = d.fb.pixel p)) ∧
  (d'.collision = true ↔ d.collision = true ∨ ∃ p, p < 2048 ∧ S p ∧ d.fb.pixel p = true)

theorem Drawing.Toggles.refl (d : Drawing) : Drawing.Toggles (fun _ => False) d d := by
  constructor <;> simp

theorem Drawing.Toggles.congr {S T : Nat → Prop} {d d' : Drawing} (h : Drawing.Toggles S d d') (e : ∀ p, S p ↔ T p) :
    Drawing.Toggles T d d' := by
  have : S = T := funext fun p => propext (e p)
  exact this ▸ h

/-- Two drawings one after the other, on pixels that do not meet. -/
theorem Drawing.Toggles.trans {S T : Nat → Prop} {d e f : Drawing} (h : Drawing.Toggles S d e)
    (k : Drawing.Toggles T e f) (hd : ∀ p, S p → ¬ T p) : Drawing.Toggles (fun p => S p ∨ T p) d f := by
  obtain ⟨h1, h2⟩ := h
  obtain ⟨k1, k2⟩ := k
  refine ⟨fun p hp => ⟨?_, ?_⟩, ?_⟩
  · rintro (hs | ht)
    · rw [(k1 p hp).2 (hd p hs), (h1 p hp).1 hs]
    · rw [(k1 p hp).1 ht, (h1 p hp).2 fun hs => hd p hs ht]
  · intro hn
    rw [(k1 p hp).2 fun ht => hn (.inr ht), (h1 p hp).2 fun hs => hn (.inl hs)]
  · rw [k2, h2]
    constructor
    · rintro ((h | ⟨p, hp, hs, hx⟩) | ⟨p, hp, ht, hx⟩)
      · exact .inl h
      · exact .inr ⟨p, hp, .inl hs, hx⟩
      · refine .inr ⟨p, hp, .inr ht, ?_⟩
        rwa [(h1 p hp).2 fun hs => hd p hs ht] at hx
    · rintro (h | ⟨p, hp, hs | ht, hx⟩)
      · exact .inl (.inl h)
      · exact .inl (.inr ⟨p, hp, hs, hx⟩)
      · refine .inr ⟨p, hp, ht, ?_⟩
        rwa [(h1 p hp).2 fun hs => hd p hs ht]

theorem drawPixel_toggles {p : Nat} (hp : p < 2048) (d : Drawing) :
    Drawing.Toggles (fun q => q = p) d (drawPixel p d) := by
  constructor
  · intro q hq
    simp only [drawPixel]
    rw [Framebuffer.pixel_toggle d.fb hp hq]
    constructor
    · intro e; rw [if_pos e]
    · intro e; rw [if_neg e]
  · simp [drawPixel, hp]

/-- The columns of one row toggle the pixels of the set bits. -/
theorem drawColumns_toggles {px cy : Nat} (hcy : cy < 32) (b : Byte) (cols : List Nat) (d : Drawing)
    (hc : ∀ c ∈ cols, c < 8) (hn : cols.Nodup) :
    Drawing.Toggles (fun p => ∃ c ∈ cols, b.getLsbD (7 - c) = true ∧ p = pixelIndex px cy c) d
      (drawColumns px cy b cols d) := by
  induction cols generalizing d with
  | nil => exact (Drawing.Toggles.refl d).congr (by simp)
  | cons c cols ih =>
    rw [List.nodup_cons] at hn
    have hc8 := hc c List.mem_cons_self
    have ih' := fun d => ih d (fun e he => hc e (List.mem_cons_of_mem _ he)) hn.2
    rw [drawColumns]
    by_cases hb : b.getLsbD (7 - c) = true
    · rw [if_pos hb]
      refine ((drawPixel_toggles (pixelIndex_lt hcy) d).trans (ih' _) ?_).congr ?_
      · rintro p rfl ⟨e, he, -, heq⟩
        have := hc e (List.mem_cons_of_mem _ he)
        have hne : c ≠ e := fun h => hn.1 (h ▸ he)
        unfold pixelIndex at heq
        omega
      · intro p
        constructor
        · rintro (rfl | ⟨e, he, h⟩)
          · exact ⟨c, List.mem_cons_self, hb, rfl⟩
          · exact ⟨e, List.mem_cons_of_mem _ he, h⟩
        · rintro ⟨e, he, h⟩
          rcases List.mem_cons.1 he with rfl | he
          · exact .inl h.2
          · exact .inr ⟨e, he, h⟩
    · rw [if_neg hb]
      refine (ih' d).congr fun p => ?_
      constructor
      · rintro ⟨e, he, h⟩; exact ⟨e, List.mem_cons_of_mem _ he, h⟩
      · rintro ⟨e, he, h⟩
        rcases List.mem_cons.1 he with rfl | he
        · exact absurd h.1 hb
        · exact ⟨e, he, h⟩

/-- The rows of a sprite toggle the pixels of the set bits of all of them. -/
theorem drawRows_toggles (px py row : Nat) (bs : List Byte) (d : Drawing) (hrow : row + bs.length ≤ 32) :
    Drawing.Toggles (fun p => ∃ k c, ∃ h : k < bs.length, c < 8 ∧ bs[k].getLsbD (7 - c) = true ∧
      p = pixelIndex px ((py + row + k) % 32) c) d (drawRows px py row bs d) := by
  induction bs generalizing row d with
  | nil => exact (Drawing.Toggles.refl d).congr (by simp)
  | cons b bs ih =>
    simp only [List.length_cons] at hrow
    rw [drawRows]
    have hcy : (py + row) % 32 < 32 := by omega
    refine ((drawColumns_toggles hcy b (List.range 8) d (by simp) List.nodup_range).trans
      (ih (row + 1) _ (by omega)) ?_).congr ?_
    · rintro p ⟨c, hc, -, rfl⟩ ⟨k, e, hk, he, -, heq⟩
      have := List.mem_range.1 hc
      unfold pixelIndex at heq
      omega
    · intro p
      constructor
      · rintro (⟨c, hc, hb, rfl⟩ | ⟨k, c, hk, hc, hb, rfl⟩)
        · exact ⟨0, c, by simp, List.mem_range.1 hc, by simpa using hb, rfl⟩
        · refine ⟨k + 1, c, by simpa using hk, hc, by simpa using hb, ?_⟩
          rw [show py + (row + 1) + k = py + row + (k + 1) by omega]
      · rintro ⟨k, c, hk, hc, hb, rfl⟩
        cases k with
        | zero => exact .inl ⟨c, List.mem_range.2 hc, by simpa using hb, rfl⟩
        | succ k =>
          refine .inr ⟨k, c, by simpa using hk, hc, by simpa using hb, ?_⟩
          rw [show py + (row + 1) + k = py + row + (k + 1) by omega]

end Sys2Proof.Machine
end

