-- ==== Sys2Proof/Laws/Encoding.lean ====
section
/-! SUPPORT. Instruction words as numbers: what each format's word and each field is, and so which field a format puts
where (30_encoding.md R61, R62). -/

namespace Sys2Proof

/-- The number of a concatenation (00_scope.md R7). -/
theorem toNat_append' {m n : Nat} (a : BitVec m) (b : BitVec n) : (a ++ b).toNat = a.toNat * 2 ^ n + b.toNat := by
  rw [BitVec.toNat_append, ← Nat.shiftLeft_add_eq_or_of_lt b.isLt, Nat.shiftLeft_eq]

theorem toNat_formatNnn (p : Nibble) (nnn : Addr12) : (formatNnn p nnn).toNat = p.toNat * 4096 + nnn.toNat :=
  toNat_append' p nnn
theorem toNat_formatXkk (p x : Nibble) (kk : Byte) :
    (formatXkk p x kk).toNat = p.toNat * 4096 + x.toNat * 256 + kk.toNat := by
  have h1 := toNat_append' p x
  have h2 : (formatXkk p x kk).toNat = (p ++ x).toNat * 2 ^ 8 + kk.toNat := toNat_append' (p ++ x) kk
  rw [h2, h1]; omega
theorem toNat_formatX (p x : Nibble) (kk : Byte) :
    (formatX p x kk).toNat = p.toNat * 4096 + x.toNat * 256 + kk.toNat := toNat_formatXkk p x kk
theorem toNat_formatXyn (p x y n : Nibble) :
    (formatXyn p x y n).toNat = p.toNat * 4096 + x.toNat * 256 + y.toNat * 16 + n.toNat := by
  have h1 := toNat_append' p x
  have h2 := toNat_append' (p ++ x) y
  have h3 : (formatXyn p x y n).toNat = (p ++ x ++ y).toNat * 2 ^ 4 + n.toNat := toNat_append' (p ++ x ++ y) n
  rw [h3, h2, h1]; omega
theorem toNat_primary (op : Word) : (primary op).toNat = op.toNat / 4096 := by
  simp [primary, Nat.shiftRight_eq_div_pow]; omega
theorem toNat_fieldX (op : Word) : (fieldX op).toNat = op.toNat / 256 % 16 := by
  simp [fieldX, Nat.shiftRight_eq_div_pow]
theorem toNat_fieldY (op : Word) : (fieldY op).toNat = op.toNat / 16 % 16 := by
  simp [fieldY, Nat.shiftRight_eq_div_pow]
theorem toNat_fieldN (op : Word) : (fieldN op).toNat = op.toNat % 16 := by
  simp [fieldN]
theorem toNat_fieldKk (op : Word) : (fieldKk op).toNat = op.toNat % 256 := by
  simp [fieldKk]
theorem toNat_fieldNnn (op : Word) : (fieldNnn op).toNat = op.toNat % 4096 := by
  simp [fieldNnn]

/-! ### The fields of each format's word -/

@[simp] theorem primary_formatNnn (p : Nibble) (nnn : Addr12) : primary (formatNnn p nnn) = p := by
  apply BitVec.eq_of_toNat_eq; rw [toNat_primary, toNat_formatNnn]; omega

@[simp] theorem fieldNnn_formatNnn (p : Nibble) (nnn : Addr12) : fieldNnn (formatNnn p nnn) = nnn := by
  apply BitVec.eq_of_toNat_eq; rw [toNat_fieldNnn, toNat_formatNnn]; omega

@[simp] theorem primary_formatXkk (p x : Nibble) (kk : Byte) : primary (formatXkk p x kk) = p := by
  apply BitVec.eq_of_toNat_eq; rw [toNat_primary, toNat_formatXkk]; omega

@[simp] theorem fieldX_formatXkk (p x : Nibble) (kk : Byte) : fieldX (formatXkk p x kk) = x := by
  apply BitVec.eq_of_toNat_eq; rw [toNat_fieldX, toNat_formatXkk]; omega

@[simp] theorem fieldKk_formatXkk (p x : Nibble) (kk : Byte) : fieldKk (formatXkk p x kk) = kk := by
  apply BitVec.eq_of_toNat_eq; rw [toNat_fieldKk, toNat_formatXkk]; omega

@[simp] theorem primary_formatX (p x : Nibble) (kk : Byte) : primary (formatX p x kk) = p := by
  apply BitVec.eq_of_toNat_eq; rw [toNat_primary, toNat_formatX]; omega

@[simp] theorem fieldX_formatX (p x : Nibble) (kk : Byte) : fieldX (formatX p x kk) = x := by
  apply BitVec.eq_of_toNat_eq; rw [toNat_fieldX, toNat_formatX]; omega

@[simp] theorem fieldKk_formatX (p x : Nibble) (kk : Byte) : fieldKk (formatX p x kk) = kk := by
  apply BitVec.eq_of_toNat_eq; rw [toNat_fieldKk, toNat_formatX]; omega

@[simp] theorem primary_formatXyn (p x y n : Nibble) : primary (formatXyn p x y n) = p := by
  apply BitVec.eq_of_toNat_eq; rw [toNat_primary, toNat_formatXyn]; omega

@[simp] theorem fieldX_formatXyn (p x y n : Nibble) : fieldX (formatXyn p x y n) = x := by
  apply BitVec.eq_of_toNat_eq; rw [toNat_fieldX, toNat_formatXyn]; omega

@[simp] theorem fieldY_formatXyn (p x y n : Nibble) : fieldY (formatXyn p x y n) = y := by
  apply BitVec.eq_of_toNat_eq; rw [toNat_fieldY, toNat_formatXyn]; omega

@[simp] theorem fieldN_formatXyn (p x y n : Nibble) : fieldN (formatXyn p x y n) = n := by
  apply BitVec.eq_of_toNat_eq; rw [toNat_fieldN, toNat_formatXyn]; omega

/-! ### A word is its fields, in each format -/

theorem formatNnn_fields (op : Word) : formatNnn (primary op) (fieldNnn op) = op := by
  apply BitVec.eq_of_toNat_eq; rw [toNat_formatNnn, toNat_primary, toNat_fieldNnn]; omega

theorem formatXkk_fields (op : Word) : formatXkk (primary op) (fieldX op) (fieldKk op) = op := by
  apply BitVec.eq_of_toNat_eq; rw [toNat_formatXkk, toNat_primary, toNat_fieldX, toNat_fieldKk]; omega

theorem formatX_fields (op : Word) : formatX (primary op) (fieldX op) (fieldKk op) = op := formatXkk_fields op

theorem formatXyn_fields (op : Word) : formatXyn (primary op) (fieldX op) (fieldY op) (fieldN op) = op := by
  apply BitVec.eq_of_toNat_eq
  rw [toNat_formatXyn, toNat_primary, toNat_fieldX, toNat_fieldY, toNat_fieldN]; omega

/-- The two bytes of a word in the store's order give the word back (20_memory.md R45). -/
theorem wordOfBytes_bytes (op : Word) : wordOfBytes (highByte op) (lowByte op) = op := by
  apply BitVec.eq_of_toNat_eq
  have h : (wordOfBytes (highByte op) (lowByte op)).toNat = (highByte op).toNat * 2 ^ 8 + (lowByte op).toNat :=
    toNat_append' _ _
  rw [h]
  simp [highByte, lowByte, Nat.shiftRight_eq_div_pow]
  omega

/-! ### Masks -/

theorem and_formatXyn (a b c d a' b' c' d' : Nibble) :
    formatXyn a b c d &&& formatXyn a' b' c' d' = formatXyn (a &&& a') (b &&& b') (c &&& c') (d &&& d') := by
  have h1 := BitVec.and_append (x₁ := a ++ b ++ c) (y₁ := d) (x₂ := a' ++ b' ++ c') (y₂ := d')
  have h2 := BitVec.and_append (x₁ := a ++ b) (y₁ := c) (x₂ := a' ++ b') (y₂ := c')
  have h3 := BitVec.and_append (x₁ := a) (y₁ := b) (x₂ := a') (y₂ := b')
  exact h1.trans (by rw [h2, h3]; rfl)

theorem or_formatXyn (a b c d a' b' c' d' : Nibble) :
    formatXyn a b c d ||| formatXyn a' b' c' d' = formatXyn (a ||| a') (b ||| b') (c ||| c') (d ||| d') := by
  have h1 := BitVec.or_append (x₁ := a ++ b ++ c) (y₁ := d) (x₂ := a' ++ b' ++ c') (y₂ := d')
  have h2 := BitVec.or_append (x₁ := a ++ b) (y₁ := c) (x₂ := a' ++ b') (y₂ := c')
  have h3 := BitVec.or_append (x₁ := a) (y₁ := b) (x₂ := a') (y₂ := b')
  exact h1.trans (by rw [h2, h3]; rfl)

theorem nibble_and_ones (a : Nibble) : a &&& 0xF = a := by revert a; decide

/-- The mask of the rows that are selected by the primary opcode alone (R66). -/
theorem and_F000 (op : Word) : op &&& 0xF000 = formatXyn (primary op) 0 0 0 := by
  conv_lhs => rw [← formatXyn_fields op]
  rw [show (0xF000 : Word) = formatXyn 0xF 0 0 0 from rfl, and_formatXyn, nibble_and_ones]
  simp

/-- The mask of the rows that are selected by the low nibble too (R66). -/
theorem and_F00F (op : Word) : op &&& 0xF00F = formatXyn (primary op) 0 0 (fieldN op) := by
  conv_lhs => rw [← formatXyn_fields op]
  rw [show (0xF00F : Word) = formatXyn 0xF 0 0 0xF from rfl, and_formatXyn, nibble_and_ones, nibble_and_ones]
  simp

/-- The mask of the rows that are selected by the low byte too (R66). -/
theorem and_F0FF (op : Word) : op &&& 0xF0FF = formatX (primary op) 0 (fieldKk op) := by
  conv_lhs => rw [← formatXyn_fields op]
  rw [show (0xF0FF : Word) = formatXyn 0xF 0 0xF 0xF from rfl, and_formatXyn, nibble_and_ones, nibble_and_ones,
    nibble_and_ones]
  apply BitVec.eq_of_toNat_eq
  rw [toNat_formatX, toNat_formatXyn, toNat_fieldKk, toNat_fieldY, toNat_fieldN]
  simp
  omega

/-! ### The words as the rules write them: fields shifted into place and joined with `|` -/

theorem formatXyn_or (p x y n : Nibble) : formatXyn p x y n =
    p.setWidth 16 <<< 12 ||| x.setWidth 16 <<< 8 ||| y.setWidth 16 <<< 4 ||| n.setWidth 16 := by
  have h1 : (p.setWidth 16 <<< 12 : Word) = formatXyn p 0 0 0 := by
    apply BitVec.eq_of_toNat_eq; rw [toNat_formatXyn]; simp [Nat.shiftLeft_eq]; omega
  have h2 : (x.setWidth 16 <<< 8 : Word) = formatXyn 0 x 0 0 := by
    apply BitVec.eq_of_toNat_eq; rw [toNat_formatXyn]; simp [Nat.shiftLeft_eq]; omega
  have h3 : (y.setWidth 16 <<< 4 : Word) = formatXyn 0 0 y 0 := by
    apply BitVec.eq_of_toNat_eq; rw [toNat_formatXyn]; simp [Nat.shiftLeft_eq]; omega
  have h4 : (n.setWidth 16 : Word) = formatXyn 0 0 0 n := by
    apply BitVec.eq_of_toNat_eq; rw [toNat_formatXyn]; simp; omega
  rw [h1, h2, h3, h4]
  simp [or_formatXyn]

theorem formatXkk_or (p x : Nibble) (kk : Byte) : formatXkk p x kk =
    p.setWidth 16 <<< 12 ||| x.setWidth 16 <<< 8 ||| kk.setWidth 16 := by
  have h1 : formatXkk p x kk = formatXyn p x (kk.extractLsb' 4 4) (kk.extractLsb' 0 4) := by
    apply BitVec.eq_of_toNat_eq; rw [toNat_formatXyn, toNat_formatXkk]; simp [Nat.shiftRight_eq_div_pow]; omega
  have h2 : (kk.setWidth 16 : Word) = formatXyn 0 0 (kk.extractLsb' 4 4) (kk.extractLsb' 0 4) := by
    apply BitVec.eq_of_toNat_eq; rw [toNat_formatXyn]; simp [Nat.shiftRight_eq_div_pow]; omega
  have h3 : (p.setWidth 16 <<< 12 ||| x.setWidth 16 <<< 8 : Word) = formatXyn p x 0 0 := by
    rw [formatXyn_or]; simp
  rw [h1, h2, h3, or_formatXyn]; simp

theorem formatX_or (p x : Nibble) (kk : Byte) : formatX p x kk =
    p.setWidth 16 <<< 12 ||| x.setWidth 16 <<< 8 ||| kk.setWidth 16 := formatXkk_or p x kk

theorem formatNnn_or (p : Nibble) (nnn : Addr12) : formatNnn p nnn = p.setWidth 16 <<< 12 ||| nnn.setWidth 16 := by
  have h1 : formatNnn p nnn = formatXyn p (nnn.extractLsb' 8 4) (nnn.extractLsb' 4 4) (nnn.extractLsb' 0 4) := by
    apply BitVec.eq_of_toNat_eq; rw [toNat_formatXyn, toNat_formatNnn]; simp [Nat.shiftRight_eq_div_pow]; omega
  have h2 : (nnn.setWidth 16 : Word) =
      formatXyn 0 (nnn.extractLsb' 8 4) (nnn.extractLsb' 4 4) (nnn.extractLsb' 0 4) := by
    apply BitVec.eq_of_toNat_eq; rw [toNat_formatXyn]; simp [Nat.shiftRight_eq_div_pow]; omega
  have h3 : (p.setWidth 16 <<< 12 : Word) = formatXyn p 0 0 0 := by
    rw [formatXyn_or]; simp
  rw [h1, h2, h3, or_formatXyn]; simp

end Sys2Proof
end

