-- ==== Sys2Proof/Laws/PerInstr.lean ====
section
/-! SUPPORT. Statements made per instruction. The family EncodedInTable: the word of an instruction satisfies
`op & mask = match` with the match and mask of the instruction's own row of the opcode map (30_encoding.md R66). -/

namespace Sys2Proof.Laws.EncodedInTable

/-- The instruction's word is its row's (R66). -/
def Statement (i : Instr) : Prop := i.row ∈ opcodeTable ∧ encode i &&& i.row.maskBits = i.row.matchBits

theorem cls : Statement .cls :=
  ⟨by decide, by decide⟩

theorem ret : Statement .ret :=
  ⟨by decide, by decide⟩

theorem jp (nnn : Addr12) : Statement (.jp nnn) :=
  ⟨by simp [Instr.row, opcodeTable],
    by simp only [Instr.row, encode, and_F000]; simp; rfl⟩

theorem call (nnn : Addr12) : Statement (.call nnn) :=
  ⟨by simp [Instr.row, opcodeTable],
    by simp only [Instr.row, encode, and_F000]; simp; rfl⟩

theorem seVxKk (x : Nibble) (kk : Byte) : Statement (.seVxKk x kk) :=
  ⟨by simp [Instr.row, opcodeTable],
    by simp only [Instr.row, encode, and_F000]; simp; rfl⟩

theorem sneVxKk (x : Nibble) (kk : Byte) : Statement (.sneVxKk x kk) :=
  ⟨by simp [Instr.row, opcodeTable],
    by simp only [Instr.row, encode, and_F000]; simp; rfl⟩

theorem seVxVy (x : Nibble) (y : Nibble) : Statement (.seVxVy x y) :=
  ⟨by simp [Instr.row, opcodeTable],
    by simp only [Instr.row, encode, and_F00F]; simp; rfl⟩

theorem ldVxKk (x : Nibble) (kk : Byte) : Statement (.ldVxKk x kk) :=
  ⟨by simp [Instr.row, opcodeTable],
    by simp only [Instr.row, encode, and_F000]; simp; rfl⟩

theorem addVxKk (x : Nibble) (kk : Byte) : Statement (.addVxKk x kk) :=
  ⟨by simp [Instr.row, opcodeTable],
    by simp only [Instr.row, encode, and_F000]; simp; rfl⟩

theorem ldVxVy (x : Nibble) (y : Nibble) : Statement (.ldVxVy x y) :=
  ⟨by simp [Instr.row, opcodeTable],
    by simp only [Instr.row, encode, and_F00F]; simp; rfl⟩

theorem orVxVy (x : Nibble) (y : Nibble) : Statement (.orVxVy x y) :=
  ⟨by simp [Instr.row, opcodeTable],
    by simp only [Instr.row, encode, and_F00F]; simp; rfl⟩

theorem andVxVy (x : Nibble) (y : Nibble) : Statement (.andVxVy x y) :=
  ⟨by simp [Instr.row, opcodeTable],
    by simp only [Instr.row, encode, and_F00F]; simp; rfl⟩

theorem xorVxVy (x : Nibble) (y : Nibble) : Statement (.xorVxVy x y) :=
  ⟨by simp [Instr.row, opcodeTable],
    by simp only [Instr.row, encode, and_F00F]; simp; rfl⟩

theorem addVxVy (x : Nibble) (y : Nibble) : Statement (.addVxVy x y) :=
  ⟨by simp [Instr.row, opcodeTable],
    by simp only [Instr.row, encode, and_F00F]; simp; rfl⟩

theorem subVxVy (x : Nibble) (y : Nibble) : Statement (.subVxVy x y) :=
  ⟨by simp [Instr.row, opcodeTable],
    by simp only [Instr.row, encode, and_F00F]; simp; rfl⟩

theorem shrVx (x : Nibble) (y : Nibble) : Statement (.shrVx x y) :=
  ⟨by simp [Instr.row, opcodeTable],
    by simp only [Instr.row, encode, and_F00F]; simp; rfl⟩

theorem subnVxVy (x : Nibble) (y : Nibble) : Statement (.subnVxVy x y) :=
  ⟨by simp [Instr.row, opcodeTable],
    by simp only [Instr.row, encode, and_F00F]; simp; rfl⟩

theorem shlVx (x : Nibble) (y : Nibble) : Statement (.shlVx x y) :=
  ⟨by simp [Instr.row, opcodeTable],
    by simp only [Instr.row, encode, and_F00F]; simp; rfl⟩

theorem sneVxVy (x : Nibble) (y : Nibble) : Statement (.sneVxVy x y) :=
  ⟨by simp [Instr.row, opcodeTable],
    by simp only [Instr.row, encode, and_F00F]; simp; rfl⟩

theorem ldI (nnn : Addr12) : Statement (.ldI nnn) :=
  ⟨by simp [Instr.row, opcodeTable],
    by simp only [Instr.row, encode, and_F000]; simp; rfl⟩

theorem jpV0 (nnn : Addr12) : Statement (.jpV0 nnn) :=
  ⟨by simp [Instr.row, opcodeTable],
    by simp only [Instr.row, encode, and_F000]; simp; rfl⟩

theorem rnd (x : Nibble) (kk : Byte) : Statement (.rnd x kk) :=
  ⟨by simp [Instr.row, opcodeTable],
    by simp only [Instr.row, encode, and_F000]; simp; rfl⟩

theorem drw (x : Nibble) (y : Nibble) (n : Nibble) : Statement (.drw x y n) :=
  ⟨by simp [Instr.row, opcodeTable],
    by simp only [Instr.row, encode, and_F000]; simp; rfl⟩

theorem skp (x : Nibble) : Statement (.skp x) :=
  ⟨by simp [Instr.row, opcodeTable],
    by simp only [Instr.row, encode, and_F0FF]; simp; rfl⟩

theorem sknp (x : Nibble) : Statement (.sknp x) :=
  ⟨by simp [Instr.row, opcodeTable],
    by simp only [Instr.row, encode, and_F0FF]; simp; rfl⟩

theorem ldVxDt (x : Nibble) : Statement (.ldVxDt x) :=
  ⟨by simp [Instr.row, opcodeTable],
    by simp only [Instr.row, encode, and_F0FF]; simp; rfl⟩

theorem ldVxK (x : Nibble) : Statement (.ldVxK x) :=
  ⟨by simp [Instr.row, opcodeTable],
    by simp only [Instr.row, encode, and_F0FF]; simp; rfl⟩

theorem ldDtVx (x : Nibble) : Statement (.ldDtVx x) :=
  ⟨by simp [Instr.row, opcodeTable],
    by simp only [Instr.row, encode, and_F0FF]; simp; rfl⟩

theorem ldStVx (x : Nibble) : Statement (.ldStVx x) :=
  ⟨by simp [Instr.row, opcodeTable],
    by simp only [Instr.row, encode, and_F0FF]; simp; rfl⟩

theorem addIVx (x : Nibble) : Statement (.addIVx x) :=
  ⟨by simp [Instr.row, opcodeTable],
    by simp only [Instr.row, encode, and_F0FF]; simp; rfl⟩

theorem ldFVx (x : Nibble) : Statement (.ldFVx x) :=
  ⟨by simp [Instr.row, opcodeTable],
    by simp only [Instr.row, encode, and_F0FF]; simp; rfl⟩

theorem ldBVx (x : Nibble) : Statement (.ldBVx x) :=
  ⟨by simp [Instr.row, opcodeTable],
    by simp only [Instr.row, encode, and_F0FF]; simp; rfl⟩

theorem ldMemVx (x : Nibble) : Statement (.ldMemVx x) :=
  ⟨by simp [Instr.row, opcodeTable],
    by simp only [Instr.row, encode, and_F0FF]; simp; rfl⟩

theorem ldVxMem (x : Nibble) : Statement (.ldVxMem x) :=
  ⟨by simp [Instr.row, opcodeTable],
    by simp only [Instr.row, encode, and_F0FF]; simp; rfl⟩

end Sys2Proof.Laws.EncodedInTable
end

