-- ==== Sys2Proof/Tests/Slice0.lean ====
section
/-! SUPPORT. The model's own tests. Expected values are those of the spec: the worked examples and vectors of
95_test_vectors.md (S1 to S13, V1 to V131) and the patterns of 30_encoding.md R66. After them, for each obligation that
has hypotheses, a witness that meets all of them. -/

namespace Sys2Proof.Tests

open Sys2Proof Sys2Proof.Machine Sys2Proof.Claims

/-! ### Well-formedness: what is refused -/

/-- R67 (a) to (f), with the words of V121 to V123 and V18, V106. -/
theorem test_illegal_words_are_ill_formed :
    wellFormedWord 0x0000 = false ∧ wellFormedWord 0x00E1 = false ∧ wellFormedWord 0x01E0 = false ∧
    wellFormedWord 0x5121 = false ∧ wellFormedWord 0x8018 = false ∧ wellFormedWord 0x801F = false ∧
    wellFormedWord 0x912F = false ∧ wellFormedWord 0xE300 = false ∧ wellFormedWord 0xF01F = false ∧
    wellFormedWord 0xF0FF = false := by decide

theorem test_legal_words_are_well_formed :
    wellFormedWord 0x00E0 = true ∧ wellFormedWord 0x10E0 = true ∧ wellFormedWord 0x8F1E = true ∧
    wellFormedWord 0xFA33 = true := by decide

/-- S13: 3585 bytes are refused, 3584 are not. -/
theorem test_oversized_program_is_ill_formed :
    wellFormedProgram (List.replicate 3585 0) = false ∧ wellFormedProgram (List.replicate 3584 0) = true := by
  unfold wellFormedProgram
  rw [List.length_replicate, List.length_replicate]
  decide

/-- R32, U24: an index of 16 does not fit the port. -/
theorem test_key_index_16_is_ill_formed : wellFormedKeyIndex 16 = false ∧ wellFormedKeyIndex 15 = true := by decide

/-! ### Decoding: every constructor, by a word written out from R66 -/

theorem test_decode_control_flow :
    decode 0x00EE = .ok .ret ∧ decode 0x1ABC = .ok (.jp 0xABC) ∧ decode 0x2ABC = .ok (.call 0xABC) ∧
    decode 0x3A9D = .ok (.seVxKk 0xA 0x9D) ∧ decode 0x4A9D = .ok (.sneVxKk 0xA 0x9D) ∧
    decode 0x5120 = .ok (.seVxVy 1 2) ∧ decode 0x9120 = .ok (.sneVxVy 1 2) ∧
    decode 0xBFFF = .ok (.jpV0 0xFFF) := by decide

theorem test_decode_load_alu :
    decode 0x6A9D = .ok (.ldVxKk 0xA 0x9D) ∧ decode 0x71FF = .ok (.addVxKk 1 0xFF) ∧
    decode 0x8120 = .ok (.ldVxVy 1 2) ∧ decode 0x8121 = .ok (.orVxVy 1 2) ∧ decode 0x8122 = .ok (.andVxVy 1 2) ∧
    decode 0x8123 = .ok (.xorVxVy 1 2) ∧ decode 0x8124 = .ok (.addVxVy 1 2) ∧ decode 0x8125 = .ok (.subVxVy 1 2) ∧
    decode 0x8126 = .ok (.shrVx 1 2) ∧ decode 0x8127 = .ok (.subnVxVy 1 2) ∧ decode 0x812E = .ok (.shlVx 1 2) ∧
    decode 0xC30F = .ok (.rnd 3 0x0F) := by decide

theorem test_decode_index_memory :
    decode 0xA300 = .ok (.ldI 0x300) ∧ decode 0xF21E = .ok (.addIVx 2) ∧ decode 0xF329 = .ok (.ldFVx 3) ∧
    decode 0xFA33 = .ok (.ldBVx 0xA) ∧ decode 0xFF55 = .ok (.ldMemVx 0xF) ∧ decode 0xF265 = .ok (.ldVxMem 2) := by decide

theorem test_decode_display : decode 0x00E0 = .ok .cls ∧ decode 0xD123 = .ok (.drw 1 2 3) := by decide

theorem test_decode_input_timers :
    decode 0xE39E = .ok (.skp 3) ∧ decode 0xE3A1 = .ok (.sknp 3) ∧ decode 0xF107 = .ok (.ldVxDt 1) ∧
    decode 0xF50A = .ok (.ldVxK 5) ∧ decode 0xF015 = .ok (.ldDtVx 0) ∧ decode 0xF118 = .ok (.ldStVx 1) := by decide

/-- V121 to V123, V106: rejected under the name of the class of R67. -/
theorem test_decode_rejects_by_class :
    decode 0x0123 = .error .family0 ∧ decode 0x00EF = .error .family0 ∧ decode 0x5121 = .error .family5 ∧
    decode 0x801D = .error .family8 ∧ decode 0x9001 = .error .family9 ∧ decode 0xE300 = .error .familyE ∧
    decode 0xF075 = .error .familyF := by decide

/-- R47: the word `0x6A9D` is the bytes `0x6A`, `0x9D` at rising addresses. -/
theorem test_decode_bytes_high_byte_first : decodeBytes 0x6A 0x9D = .ok (.ldVxKk 0xA 0x9D) := by decide

theorem test_decode_table_word :
    decodeTableWord 16 0x8125 = some (.subVxVy 1 2) ∧ decodeTableWord 16 0x5121 = none := by decide

/-- R61, R66: words assembled from their fields. -/
theorem test_encode :
    encode (.drw 1 2 3) = 0xD123 ∧ encode (.ldBVx 0xA) = 0xFA33 ∧ encode (.call 0x210) = 0x2210 ∧
    encode (.rnd 3 0x0F) = 0xC30F ∧ encode .ret = 0x00EE := by decide

/-! ### One step of each instruction -/

/-- The reset state with an instruction word at `pc = 0x200` (the convention of 95_test_vectors.md). -/
def placed (op : Nat) : State := State.reset.withFetchWord 16 op

/-- `placed` with two registers set. -/
def placedV (op : Nat) (r : Nibble) (a : Byte) (q : Nibble) (b : Byte) : State := ((placed op).writeV r a).writeV q b

/-- The result is a next state of which `p` holds. -/
def ends (p : State → Bool) : Result → Bool
  | .next t => p t
  | _ => false

/-- `t` is FAULTED with this record. -/
def faultedWith (kind : FaultKind) (pc op : Word) (addr : BitVec 17) (t : State) : Bool :=
  t.status == .faulted && t.faultRec == ⟨kind, pc, op, addr⟩ && t.tone == false

/-- V80. -/
theorem test_cls : ends (fun t => t.fb == Framebuffer.clear && t.pc == 0x202 && t.readV 15 == 1)
    (step (((placed 0x00E0).setFb (Framebuffer.clear.toggle 5)).writeV 15 1)) = true := by decide

/-- V9: the top entry, and RET adds 2 without a check. -/
theorem test_ret : ends (fun t => t.sp == 1 && t.pc == 0x1000)
    (step { placed 0x00EE with sp := 2, stack := (Vector.replicate 16 0x300).set 1 0xFFE }) = true := by decide

/-- V8. -/
theorem test_ret_underflow : ends (fun t => faultedWith .stackUnderflow 0x200 0x00EE 0 t && t.pc == 0x200)
    (step (placed 0x00EE)) = true := by decide

/-- V1. -/
theorem test_jp : ends (fun t => t.pc == 0x0ABC) (step (placed 0x1ABC)) = true := by decide

/-- V5: the sixteenth call succeeds and pushes its own address. -/
theorem test_call : ends (fun t => t.stack[15] == 0x200 && t.sp == 16 && t.pc == 0xABC)
    (step { placed 0x2ABC with sp := 15 }) = true := by decide

/-- V6: the seventeenth faults. -/
theorem test_call_overflow :
    ends (fun t => faultedWith .stackOverflow 0x200 0x2ABC 0 t && t.sp == 16 && t.pc == 0x200)
    (step { placed 0x2ABC with sp := 16 }) = true := by decide

/-- V10, V11. -/
theorem test_se_immediate :
    ends (fun t => t.pc == 0x204) (step ((placed 0x3A9D).writeV 10 0x9D)) = true ∧
    ends (fun t => t.pc == 0x202) (step ((placed 0x3A9D).writeV 10 0x9C)) = true := by decide

/-- V12, V13. -/
theorem test_sne_immediate :
    ends (fun t => t.pc == 0x202) (step ((placed 0x4A9D).writeV 10 0x9D)) = true ∧
    ends (fun t => t.pc == 0x204) (step ((placed 0x4A9D).writeV 10 0x9C)) = true := by decide

/-- V14, V15. -/
theorem test_se_registers :
    ends (fun t => t.pc == 0x204) (step (placedV 0x5120 1 0x80 2 0x80)) = true ∧
    ends (fun t => t.pc == 0x202) (step (placedV 0x5120 1 0x80 2 0x7F)) = true := by decide

/-- V16, V17. -/
theorem test_sne_registers :
    ends (fun t => t.pc == 0x204) (step (placedV 0x9120 1 0x80 2 0x7F)) = true ∧
    ends (fun t => t.pc == 0x202) (step ((placed 0x9110).writeV 1 0x80)) = true := by decide

/-- V20: not reduced to 12 bits. -/
theorem test_jp_v0 : ends (fun t => t.pc == 0x10FE) (step ((placed 0xBFFF).writeV 0 0xFF)) = true := by decide

/-- V21: V0, never Vx. -/
theorem test_jp_v0_is_v0 : ends (fun t => t.pc == 0x300) (step ((placed 0xB300).writeV 3 0x55)) = true := by decide

/-- V30. -/
theorem test_ld_immediate : ends (fun t => t.readV 10 == 0x9D && t.pc == 0x202) (step (placed 0x6A9D)) = true := by decide

/-- V33: it wraps and leaves VF. -/
theorem test_add_immediate : ends (fun t => t.readV 1 == 0x01 && t.readV 15 == 1 && t.pc == 0x202)
    (step (placedV 0x7102 1 0xFF 15 1)) = true := by decide

/-- V36. -/
theorem test_ld_register : ends (fun t => t.readV 0 == 0x33 && t.readV 1 == 0x33)
    (step ((placed 0x8010).writeV 1 0x33)) = true := by decide

/-- V37: VF is left alone. -/
theorem test_or : ends (fun t => t.readV 0 == 0xFF && t.readV 15 == 1)
    (step ((placedV 0x8011 0 0xF0 1 0x0F).writeV 15 1)) = true := by decide

/-- V38. -/
theorem test_and : ends (fun t => t.readV 0 == 0x30) (step (placedV 0x8012 0 0xF3 1 0x3C)) = true := by decide

/-- V39. -/
theorem test_xor : ends (fun t => t.readV 0 == 0xF0) (step (placedV 0x8013 0 0xFF 1 0x0F)) = true := by decide

/-- S2. -/
theorem test_add : ends (fun t => t.readV 0 == 0x00 && t.readV 15 == 1 && t.pc == 0x202)
    (step (placedV 0x8014 0 0xFF 1 0x01)) = true := by decide

/-- V43: with `x = 15` the carry stays. -/
theorem test_add_to_vf : ends (fun t => t.readV 15 == 1) (step (placedV 0x8F14 15 0xF0 1 0x20)) = true := by decide

/-- S4, V46: a borrow, and equal operands. -/
theorem test_sub :
    ends (fun t => t.readV 0 == 0xFB && t.readV 15 == 0) (step (placedV 0x8015 0 0x05 1 0x0A)) = true ∧
    ends (fun t => t.readV 0 == 0x00 && t.readV 15 == 0) (step (placedV 0x8015 0 0x07 1 0x07)) = true := by decide

/-- V47, V48: an operand that is VF is read after the flag is written. -/
theorem test_sub_with_vf :
    ends (fun t => t.readV 15 == 0xFE) (step (placedV 0x8F15 15 0x09 1 0x03)) = true ∧
    ends (fun t => t.readV 0 == 0x08 && t.readV 15 == 1) (step (placedV 0x80F5 0 0x09 15 0x03)) = true := by decide

/-- V50: `y` selects nothing. -/
theorem test_shr : ends (fun t => t.readV 0 == 0x02 && t.readV 15 == 0 && t.readV 1 == 0xFF)
    (step (placedV 0x8016 0 0x04 1 0xFF)) = true := by decide

/-- V49, V51. -/
theorem test_shr_flag :
    ends (fun t => t.readV 0 == 0x02 && t.readV 15 == 1) (step ((placed 0x8006).writeV 0 0x05)) = true ∧
    ends (fun t => t.readV 15 == 0x00) (step ((placed 0x8F06).writeV 15 0x03)) = true := by decide

/-- V53. -/
theorem test_subn : ends (fun t => t.readV 0 == 0xFB && t.readV 15 == 0)
    (step (placedV 0x8017 0 0x0A 1 0x05)) = true := by decide

/-- V54, V55. -/
theorem test_subn_with_vf :
    ends (fun t => t.readV 15 == 0x08) (step (placedV 0x8F17 15 0x03 1 0x09)) = true ∧
    ends (fun t => t.readV 0 == 0xFE && t.readV 15 == 1) (step (placedV 0x80F7 0 0x03 15 0x09)) = true := by decide

/-- V56, V57. -/
theorem test_shl :
    ends (fun t => t.readV 0 == 0x02 && t.readV 15 == 1) (step ((placed 0x800E).writeV 0 0x81)) = true ∧
    ends (fun t => t.readV 0 == 0x80 && t.readV 15 == 0) (step ((placed 0x800E).writeV 0 0x40)) = true := by decide

/-- V58. -/
theorem test_shl_vf : ends (fun t => t.readV 15 == 0x02) (step ((placed 0x8F0E).writeV 15 0x81)) = true := by decide

/-- V59. -/
theorem test_rnd :
    ends (fun t => t.readV 0 == 0x07) (stepWithRand 0xA7 (placed 0xC00F)) = true ∧
    ends (fun t => t.readV 0 == 0xA7) (stepWithRand 0xA7 (placed 0xC0FF)) = true := by decide

/-- V60. -/
theorem test_ld_i : ends (fun t => t.index == 0x300 && t.pc == 0x202) (step (placed 0xA300)) = true := by decide

/-- V61, V62. -/
theorem test_add_i :
    ends (fun t => t.index == 0x1003 && t.readV 15 == 0)
      (step (((placed 0xF21E).setIndex 0x0FFE).writeV 2 0x05)) = true ∧
    ends (fun t => t.index == 0x0001) (step (((placed 0xF21E).setIndex 0xFFFF).writeV 2 0x02)) = true := by decide

/-- V63: no mask. -/
theorem test_ld_f :
    ends (fun t => t.index == 0x004B) (step ((placed 0xF029).writeV 0 0x0F)) = true ∧
    ends (fun t => t.index == 0x04FB) (step ((placed 0xF029).writeV 0 0xFF)) = true := by decide

/-- S8. -/
theorem test_ld_b : ends (fun t => t.mem.getMany 0x300 4 == [1, 5, 7, 0] && t.index == 0x300 && t.pc == 0x202)
    (step (((placed 0xFA33).setIndex 0x300).writeV 10 0x9D)) = true := by decide

/-- V65. -/
theorem test_ld_b_edge :
    ends (fun t => t.status == .running && t.mem.getMany 0xFFD 3 == [2, 5, 5])
      (step (((placed 0xF033).setIndex 0xFFD).writeV 0 0xFF)) = true ∧
    ends (fun t => faultedWith .outOfBounds 0x200 0xF033 0x1000 t && t.mem.getMany 0xFFD 3 == [0, 0, 0])
      (step (((placed 0xF033).setIndex 0xFFE).writeV 0 0xFF)) = true := by decide

/-- V66: both ends included, `I` unchanged. -/
theorem test_ld_mem : ends (fun t => t.mem.getMany 0x300 4 == [1, 5, 7, 0] && t.index == 0x300)
    (step ((((placedV 0xF255 0 1 1 5).writeV 2 7).writeV 3 9).setIndex 0x300)) = true := by decide

/-- V67: the last sixteen bytes, and one beyond. -/
theorem test_ld_mem_edge :
    ends (fun t => t.status == .running && t.mem.get 0xFFF == 0x10)
      (step (((placed 0xFF55).setIndex 0xFF0).writeV 15 0x10)) = true ∧
    ends (fun t => faultedWith .outOfBounds 0x200 0xFF55 0x1000 t)
      (step (((placed 0xFF55).setIndex 0xFF1).writeV 15 0x10)) = true := by decide

/-- V68. -/
theorem test_ld_from_mem :
    ends (fun t => t.readV 0 == 1 && t.readV 1 == 5 && t.readV 2 == 7 && t.readV 3 == 0 && t.index == 0x300)
      (step (((placed 0xF265).setMem ((placed 0xF265).mem.putMany 0x300 [1, 5, 7, 9])).setIndex 0x300)) = true := by decide

/-- V69. -/
theorem test_ld_from_mem_fault : ends (fun t => faultedWith .outOfBounds 0x200 0xF065 0x1000 t && t.readV 0 == 0)
    (step ((placed 0xF065).setIndex 0x1000)) = true := by decide

/-- A sprite at 0x300 to be drawn by `op` with V0 and V1 as coordinates. -/
def sprite (op : Nat) (rows : List Byte) (a b : Byte) : State :=
  ((placedV op 0 a 1 b).setMem ((placed op).mem.putMany 0x300 rows)).setIndex 0x300

/-- V85: wrap in both axes, row by row: rows 31 and 0. -/
theorem test_drw : ends (fun t => t.readV 15 == 0 && t.fb ==
      ((Framebuffer.clear.set 31 0xC000000000000030).set 0 0x4000000000000020))
    (step (sprite 0xD012 [0xC3, 0x81] 62 31)) = true := by decide

/-- V82, V90: a collision, whole and partial. -/
theorem test_drw_collision :
    ends (fun t => t.readV 15 == 1 && t.fb == Framebuffer.clear)
      (step ((sprite 0xD011 [0xFF] 0 0).setFb (Framebuffer.clear.set 0 0xFF))) = true ∧
    ends (fun t => t.readV 15 == 1 && t.fb == Framebuffer.clear.set 0 0x33)
      (step ((sprite 0xD011 [0xF0] 0 0).setFb (Framebuffer.clear.set 0 0x3C))) = true := by decide

/-- V100, V101. -/
theorem test_skp :
    ends (fun t => t.pc == 0x204) (step (((placed 0xE39E).writeV 3 7).setKey 7 true)) = true ∧
    ends (fun t => t.pc == 0x202) (step ((placed 0xE39E).writeV 3 7)) = true := by decide

/-- V104. -/
theorem test_skp_fault : ends (faultedWith .keyIndexOutOfRange 0x200 0xE39E 0x10)
    (step ((placed 0xE39E).writeV 3 0x10)) = true := by decide

/-- V102, V103. -/
theorem test_sknp :
    ends (fun t => t.pc == 0x204) (step ((placed 0xE3A1).writeV 3 7)) = true ∧
    ends (fun t => t.pc == 0x202) (step (((placed 0xE3A1).writeV 3 7).setKey 7 true)) = true := by decide

/-- V105. -/
theorem test_sknp_fault : ends (faultedWith .keyIndexOutOfRange 0x200 0xE3A1 0xFF)
    (step ((placed 0xE3A1).writeV 3 0xFF)) = true := by decide

/-- V107: a waiting step holds `pc`, writes nothing and ticks. -/
theorem test_ld_k_waits : ends (fun t => t.pc == 0x200 && t.readV 5 == 9 && t.dt == 4)
    (step (((placed 0xF50A).writeV 5 9).setDt 5)) = true := by decide

/-- V108: the lowest key. -/
theorem test_ld_k : ends (fun t => t.pc == 0x202 && t.readV 5 == 3)
    (step (((placed 0xF50A).setKey 9 true).setKey 3 true)) = true := by decide

/-- V110. -/
theorem test_ld_from_dt : ends (fun t => t.readV 1 == 2 && t.dt == 1) (step ((placed 0xF107).setDt 2)) = true := by decide

/-- V112, V113. -/
theorem test_ld_dt :
    ends (fun t => t.dt == 2) (step ((placed 0xF015).writeV 0 3)) = true ∧
    ends (fun t => t.dt == 0) (step (placed 0xF015)) = true := by decide

/-- V114, V115. -/
theorem test_ld_st :
    ends (fun t => t.st == 1 && !t.tone) (step ((placed 0xF118).writeV 1 2)) = true ∧
    ends (fun t => t.st == 0 && t.tone) (step ((placed 0xF118).writeV 1 1)) = true := by decide

/-! ### The step cycle and the ports -/

/-- V117: a timer at 0 does not wrap. -/
theorem test_tick : ends (fun t => t.dt == 0xFE && t.st == 0 && !t.tone) (step ((placed 0x6000).setDt 0xFF)) = true := by
  decide

/-- V120: the first step after reset. -/
theorem test_reset_step : ends (faultedWith .unimplementedInstruction 0x200 0x0000 0) (step State.reset) = true := by
  decide

/-- V125, V124: the fetch at 0xFFF and at 0xFFE. -/
theorem test_fetch_edge :
    ends (faultedWith .outOfBounds 0xFFF 0 0x1000) (step (State.reset.setPc 0xFFF)) = true ∧
    ends (fun t => t.pc == 0x200) (step ((State.reset.setPc 0xFFE).withFetchWord 16 0x1200)) = true := by decide

/-- V126: an odd `pc`. -/
theorem test_odd_pc : ends (fun t => t.readV 10 == 0x9D && t.pc == 0x203)
    (step ((State.reset.setPc 0x201).withFetchWord 16 0x6A9D)) = true := by decide

/-- V128: a faulting step does not tick. -/
theorem test_fault_does_not_tick : ends (fun t => t.dt == 5 && t.st == 1 && !t.tone && t.status == .faulted)
    (step (((placed 0x00EE).setDt 5).setSt 1)) = true := by decide

/-- S13. -/
theorem test_load_program :
    (State.reset.loadProgram [0x6A, 0x9D]).1 = .ok ∧
    (State.reset.loadProgram [0x6A, 0x9D]).2.mem.getMany 511 4 = [0, 0x6A, 0x9D, 0] := by decide

/-- V8 and V115 through the ports: STATUS is bit 1, StackUnderflow is code 4 (60_exceptions.md R200), TONE is bit 1. -/
theorem test_ports :
    ends (fun t => t.statusPort == 1 && t.faultPort == (4, 0x200, 0x00EE, 0) && t.tonePort == 0)
      (step (placed 0x00EE)) = true ∧
    ends (fun t => t.statusPort == 0 && t.faultPort == (0, 0, 0, 0) && t.tonePort == 1)
      (step ((placed 0xF118).writeV 1 1)) = true := by decide

/-- R33: the port's order. -/
theorem test_framebuffer_port : (State.reset.setFb (Framebuffer.clear.set 1 1)).framebufferPort[64]? = some true := by
  simp [State.framebufferPort, Framebuffer.pixel, Framebuffer.clear]

/-! ### Witnesses: for each obligation with hypotheses, states and operands that meet all of them -/

/-- A result that `ends` as said is that next state. -/
theorem next_of_ends {p : State → Bool} {r : Result} (h : ends p r = true) : ∃ t, r = .next t ∧ p t = true := by
  cases r with
  | next t => exact ⟨t, rfl, h⟩
  | fault r => cases r
  | refused r => cases h

/-- A FAULTED state: RET on an empty stack (V8). -/
def faulted : State := (placed 0x00EE).takeFault .stackUnderflow 0x00EE 0

/-- Two instruction words one after the other at 0x200. -/
def placed2 (op next : Nat) : State :=
  (((placed op).setPc 0x202).withFetchWord 16 next).setPc 0x200

/-- A RUNNING state made by `placed` has the invariant. -/
theorem placed_inv (op : Nat) (h : (placed op).mem.wf) : (placed op).Inv := by
  have e : placed op = { State.reset with mem := (placed op).mem } := by
    unfold placed State.withFetchWord State.placeWord
    split <;> rfl
  have h0 : State.reset.pc.toNat ≤ 0x10FE ∧ (∀ k : Fin 16, State.reset.stack[k].toNat ≤ 4094) ∧
      State.reset.faultRec.Consistent ∧ (State.reset.status = .running ↔ State.reset.faultRec.kind = .none) ∧
      (State.reset.status = .faulted → State.reset.faultRec.pc = State.reset.pc ∧ State.reset.tone = false) :=
    ⟨by decide, by decide, rfl, by decide, by decide⟩
  refine ⟨h, ?_⟩
  rw [e]
  exact h0

theorem witness_EncodeOfDecodeIsTheWord : decode 0x8016 = .ok (.shrVx 0 1) := by decide

/-- Third and fourth clause of `WordIsInstructionExactlyWhenMaskedMatch`; the second is `test_decode_display`. -/
theorem witness_WordIsInstructionExactlyWhenMaskedMatch :
    (⟨"DRW_Vx__Vy__n", 0xD000, 0xF000⟩ : OpcodeRow) ∈ opcodeTable ∧ (0xDFFF : Word) &&& 0xF000 = 0xD000 := by decide

theorem witness_StepsOfFaultedMachineChangeNothing : faulted.status = .faulted := by decide

/-- The last address a fetch can read, and an instruction that faults: the two clauses. -/
theorem witness_StepRunsTheDecodedInstruction :
    (let s := (State.reset.setPc 0xFFE).withFetchWord 16 0x1200
     s.status = .running ∧ s.pc.toNat = 4094 ∧
      decodeBytes (s.mem.get s.pc.toNat) (s.mem.get (s.pc.toNat + 1)) = .ok (.jp 0x200) ∧
      ends (fun t => t.status == .running) (exec (.jp 0x200) s) = true) ∧
    (let s := placed 0x00EE
     s.status = .running ∧ s.pc.toNat ≤ 4094 ∧
      decodeBytes (s.mem.get s.pc.toNat) (s.mem.get (s.pc.toNat + 1)) = .ok .ret ∧
      ends (fun t => t.status == .faulted) (exec .ret s) = true) := by decide

theorem witness_FetchReadsTheWordOrFaults :
    4094 + 1 < 4096 ∧ 4095 + 1 ≥ 4096 ∧
    (State.reset.setPc 4094).pc.toNat ≤ 4094 ∧
    (State.reset.setPc 4095).pc.toNat ≥ 4095 ∧ (State.reset.setPc 4095).status = .running := by decide

theorem witness_IllegalWordRaisesUnimplementedInstruction :
    let s := State.reset.setPc 4094
    s.status = .running ∧ s.pc.toNat ≤ 4094 ∧ wellFormedWord s.wordAtPc = false := by decide

theorem witness_TimersTickOncePerStep :
    ∃ t, (placed 0x6000).status = .running ∧ step (placed 0x6000) = .next t ∧ t.status = .running := by
  obtain ⟨t, h, ht⟩ := next_of_ends (p := fun t => t.status == .running) (r := step (placed 0x6000)) (by decide)
  exact ⟨t, by decide, h, by simpa using ht⟩

theorem witness_TimerInstructions :
    ((placed 0xF107).status = .running ∧ (placed 0xF107).Fetches (.ldVxDt 1)) ∧
    ((placed 0xF015).status = .running ∧ (placed 0xF015).Fetches (.ldDtVx 0)) ∧
    ((placed 0xF118).status = .running ∧ (placed 0xF118).Fetches (.ldStVx 1)) := by
  unfold State.Fetches; decide

/-- V114 with one step after it: `ST = 2` set at 0x200, then a jump. -/
theorem witness_SoundTimerRaisesToneExactlyOnce :
    let s := (placed2 0xF118 0x1202).writeV 1 2
    s.status = .running ∧ s.Fetches (.ldStVx 1) ∧ 1 ≤ (s.readV 1).toNat ∧
    ∀ k u, 1 ≤ k → k ≤ 1 → Host.Core.run core k s = .next u →
      u.status = .running ∧ ∀ y, ¬ u.Fetches (.ldStVx y) := by
  intro s
  refine ⟨by decide, by unfold State.Fetches; decide, by decide, fun k u h1 h2 h => ?_⟩
  obtain rfl : k = 1 := by omega
  obtain ⟨t, ht, hp⟩ := next_of_ends
    (p := fun t => t.status == .running && decode t.wordAtPc == .ok (.jp 0x202)) (r := step s) (by decide)
  have e : Host.Core.run core 1 s = .next t := by
    simp only [Host.Core.run, core, ht]
  rw [e] at h
  cases h
  simp only [Bool.and_eq_true, beq_iff_eq] at hp
  refine ⟨hp.1, fun y hy => ?_⟩
  have := hy.2
  rw [hp.2] at this
  cases this

theorem witness_ToneIsOneOnlyAfterTheFinalTick :
    ∃ t, ((placed 0x6000).setSt 1).Inv ∧ step ((placed 0x6000).setSt 1) = .next t ∧ t.tone = true := by
  obtain ⟨t, h, ht⟩ := next_of_ends (p := fun t => t.tone) (r := step ((placed 0x6000).setSt 1)) (by decide)
  exact ⟨t, placed_inv _ (by decide), h, ht⟩

theorem witness_PcAfterEachInstruction :
    ∃ t, (placed 0x3000).Inv ∧ (placed 0x3000).status = .running ∧ (placed 0x3000).Fetches (.seVxKk 0 0) ∧
      step (placed 0x3000) = .next t ∧ t.status = .running := by
  obtain ⟨t, h, ht⟩ := next_of_ends (p := fun t => t.status == .running) (r := step (placed 0x3000)) (by decide)
  exact ⟨t, placed_inv _ (by decide), by decide, by unfold State.Fetches; decide, h, by simpa using ht⟩

/-- Neither side of the equivalence is empty: reset faults, `placed 0x6000` does not. -/
theorem witness_StepFaultsExactlyOnTheListedConditions :
    (State.reset.status = .running ∧ faultCause State.reset ≠ none) ∧
    ((placed 0x6000).status = .running ∧ faultCause (placed 0x6000) = none) := by decide

theorem witness_FaultEntryIsPrecise :
    ∃ t, State.reset.status = .running ∧ step State.reset = .next t ∧ t.status = .faulted := by
  obtain ⟨t, h, ht⟩ := next_of_ends (p := fun t => t.status == .faulted) (r := step State.reset) (by decide)
  exact ⟨t, by decide, h, by simpa using ht⟩

theorem witness_OnlyResetLeavesTheFaultedState :
    faulted.status = .faulted ∧
    Transaction.reset ∉ [Transaction.setKey 7 true, .loadProgram [0x12, 0x00], .step 0xA7] := by decide

/-- The least sum that faults, 4095, and the greatest, 0x10FE. -/
theorem witness_JumpV0AddsTheOffset :
    ((placed 0xBFFF).status = .running ∧ (placed 0xBFFF).Fetches (.jpV0 0xFFF) ∧
      (0xFFF : Addr12).toNat + ((placed 0xBFFF).readV 0).toNat = 4095) ∧
    (((placed 0xBFFF).writeV 0 0xFF).Fetches (.jpV0 0xFFF) ∧
      (0xFFF : Addr12).toNat + (((placed 0xBFFF).writeV 0 0xFF).readV 0).toNat = 0x10FE) := by
  unfold State.Fetches; decide

theorem witness_CallPushesItsOwnAddress :
    ({ State.reset with sp := 15 } : State).sp.val < 16 ∧ ({ State.reset with sp := 16 } : State).sp.val = 16 := by
  decide

theorem witness_ReturnPopsAndContinuesAfterTheCall :
    ({ State.reset with sp := 16 } : State).sp.val = (15 : Fin 16).val + 1 ∧
    ({ State.reset with sp := 1 } : State).sp.val = (0 : Fin 16).val + 1 ∧ State.reset.sp.val = 0 := by decide

theorem witness_CallThenReturnContinuesAfterTheCallSite :
    let s := placed2 0x2202 0x00EE
    s.status = .running ∧ s.Fetches (.call 0x202) ∧ s.sp.val < 16 ∧ (0x202 : Addr12).toNat ≤ 4094 ∧
    decode (s.mem.get (0x202 : Addr12).toNat ++ s.mem.get ((0x202 : Addr12).toNat + 1)) = .ok .ret := by
  unfold State.Fetches; decide

theorem witness_Register15CornerCases : (14 : Nibble) ≠ 15 := by decide

/-- A step that runs another instruction, and a FAULTED machine. -/
theorem witness_RandMattersOnlyToRnd :
    ((placed 0x6000).status = .running → ∀ x kk, ¬ (placed 0x6000).Fetches (.rnd x kk)) ∧
    (faulted.status = .running → ∀ x kk, ¬ faulted.Fetches (.rnd x kk)) := by
  refine ⟨fun _ x kk h => ?_, fun h => absurd h (by decide)⟩
  have h1 := h.2
  rw [show decode (placed 0x6000).wordAtPc = .ok (.ldVxKk 0 0) by decide] at h1
  cases h1

/-- The last address at which three bytes fit, and the first at which they do not. -/
theorem witness_DecimalDigitsAreStored :
    State.reset.mem.wf ∧ (State.reset.setIndex 4093).index.toNat + 2 < 4096 ∧
    (State.reset.setIndex 4094).index.toNat + 2 ≥ 4096 := by decide

theorem witness_RegistersAreStored :
    State.reset.mem.wf ∧ (State.reset.setIndex 0xFF0).index.toNat + (15 : Nibble).toNat < 4096 ∧
    (State.reset.setIndex 0xFF1).index.toNat + (15 : Nibble).toNat ≥ 4096 := by decide

theorem witness_RegistersAreLoaded :
    (State.reset.setIndex 0xFF0).index.toNat + (15 : Nibble).toNat < 4096 ∧
    (State.reset.setIndex 0xFF1).index.toNat + (15 : Nibble).toNat ≥ 4096 := by decide

/-- Both premises at the last `I` in range, and the addresses a fetch can read: the word before the stored bytes, one
inside them and the last one of the store. -/
theorem witness_StoredBytesAreFetched :
    State.reset.mem.wf ∧ (State.reset.setIndex 4093).index.toNat + 2 < 4096 ∧
    (State.reset.setIndex 0xFF0).index.toNat + (15 : Nibble).toNat < 4096 ∧
    (State.reset.setIndex 0xFFF).index.toNat + (0 : Nibble).toNat < 4096 ∧
    4092 ≤ 4094 ∧ 4093 ≤ 4094 ∧ 4094 ≤ 4094 := by decide

theorem witness_ByteAccessIsCheckedAgainstTheStore :
    Memory.wf [(512, 0x12), (4095, 0x01)] ∧ 4095 < 4096 ∧ 4096 ≥ 4096 := by decide

theorem witness_EqualReadsAreEqualStores :
    Memory.wf (Memory.put [] 512 0x12) ∧ Memory.wf [(512, 0x12)] ∧
    ∀ a, Memory.get (Memory.put [] 512 0x12) a = Memory.get [(512, 0x12)] a := by
  refine ⟨by decide, by decide, fun a => ?_⟩
  rw [show Memory.put [] 512 0x12 = [(512, 0x12)] by decide]

/-- The three forms of the premise: no row, the last row at 4095, and a row outside; the collision clauses are
`witness_DrawCollision`. -/
theorem witness_DrawTogglesTheCoveredPixels :
    (0 : Nibble).toNat = 0 ∧ (State.reset.setIndex 0xFFF).index.toNat + (1 : Nibble).toNat - 1 < 4096 ∧
    ((2 : Nibble).toNat > 0 ∧ (State.reset.setIndex 0xFFF).index.toNat + (2 : Nibble).toNat - 1 ≥ 4096) := by decide

/-- V82: a covered pixel that is 1. V87: pixel 1990 is covered, by wrapping. -/
theorem witness_DrawCollision :
    Covered ((sprite 0xD011 [0xFF] 0 0).setFb (Framebuffer.clear.set 0 0xFF)) 0 1 1 7 ∧
    ((sprite 0xD011 [0xFF] 0 0).setFb (Framebuffer.clear.set 0 0xFF)).fb.pixel 7 = true ∧
    Covered (sprite 0xD011 [0x01] 255 255) 0 1 1 1990 :=
  ⟨⟨0, 7, by decide, by decide, by decide, by decide⟩, by decide, ⟨0, 7, by decide, by decide, by decide, by decide⟩⟩

/-- The premises of the whole, met by a first draw that collides too (V82). -/
theorem witness_DrawingTwiceRestoresTheFramebuffer :
    (0 : Nibble) ≠ 15 ∧ (1 : Nibble) ≠ 15 ∧ (sprite 0xD011 [0xFF] 0 0).index.toNat + (1 : Nibble).toNat - 1 < 4096 ∧
    ((sprite 0xD011 [0xFF] 0 0).setFb (Framebuffer.clear.set 0 0xFF)).index.toNat + (1 : Nibble).toNat - 1 < 4096 := by
  decide

/-- The premises of the two VF clauses (V81): on a clear screen nothing collides, and a covered pixel is 0. -/
theorem witness_DrawingTwiceFlags :
    (∀ p, p < 2048 → Covered (sprite 0xD011 [0xFF] 0 0) 0 1 1 p → (sprite 0xD011 [0xFF] 0 0).fb.pixel p = false) ∧
    ∃ p, p < 2048 ∧ Covered (sprite 0xD011 [0xFF] 0 0) 0 1 1 p ∧ (sprite 0xD011 [0xFF] 0 0).fb.pixel p = false := by
  have e : (sprite 0xD011 [0xFF] 0 0).fb = Framebuffer.clear := by decide
  rw [e]
  exact ⟨fun p _ _ => Framebuffer.pixel_clear p,
    0, by decide, ⟨0, 0, by decide, by decide, by decide, by decide⟩, Framebuffer.pixel_clear 0⟩

/-- The greatest key index and the least index that is no key. -/
theorem witness_KeySkipsTestTheNamedKey :
    (((placed 0xE39E).writeV 3 15).readV 3).toNat = (15 : Fin 16).val ∧
    (((placed 0xE39E).writeV 3 16).readV 3).toNat > 15 := by decide

theorem witness_WaitForKeyTakesTheLeastPressedKey :
    (let s := (State.reset.setKey 9 true).setKey 15 true
     s.key[(9 : Fin 16)] = true ∧ ∀ j : Fin 16, j < 9 → s.key[j] = false) ∧
    ∀ k : Fin 16, State.reset.key[k] = false := by decide

theorem witness_WaitingForAKeyOnlyTicks :
    (placed 0xF50A).status = .running ∧ (placed 0xF50A).Fetches (.ldVxK 5) ∧
    ∀ k : Fin 16, (placed 0xF50A).key[k] = false := by
  unfold State.Fetches; decide

theorem witness_FinalStatesStayFinal : (placed 0x1200).Final :=
  ⟨⟨by decide, 0x200, by unfold State.Fetches; decide, by decide⟩, by decide, by decide⟩

theorem witness_SelfJumpOnlyCountsTimersDown : ((placed 0x1200).setDt 5).AtSelfJump :=
  ⟨by decide, 0x200, by unfold State.Fetches; decide, by decide⟩

theorem witness_OnlyFlagInstructionsWriteVf :
    ∃ t, exec (.ldVxKk 15 7) State.reset = .next t ∧ t.readV 15 ≠ State.reset.readV 15 :=
  ⟨_, rfl, by decide⟩

/-- Each premise of a clause is met by the instruction that the clause names. -/
theorem witness_EachStateIsWrittenOnlyByItsInstructions :
    ends (fun t => t.readV 3 != 0) (exec (.ldVxKk 3 7) State.reset) = true ∧
    ends (fun t => t.readV 15 != 0) (exec (.addVxVy 0 1) ((State.reset.writeV 0 0xFF).writeV 1 1)) = true ∧
    ends (fun t => t.readV 15 != 1) (exec (.drw 0 1 0) (State.reset.writeV 15 1)) = true ∧
    ends (fun t => t.readV 2 != 0) (exec (.ldVxMem 2) ((State.reset.setMem [(0x202, 7)]).setIndex 0x200)) = true ∧
    ends (fun t => t.index != 0) (exec (.ldI 0x300) State.reset) = true ∧
    ends (fun t => t.dt != 0) (exec (.ldDtVx 0) (State.reset.writeV 0 1)) = true ∧
    ends (fun t => t.st != 0) (exec (.ldStVx 0) (State.reset.writeV 0 1)) = true ∧
    ends (fun t => t.stack != State.reset.stack && t.sp != 0) (exec (.call 0x300) State.reset) = true ∧
    ends (fun t => t.fb != Framebuffer.clear) (exec (.drw 0 1 1) (sprite 0xD011 [0xFF] 0 0)) = true ∧
    ends (fun t => t.mem != []) (exec (.ldMemVx 0) ((State.reset.setIndex 0x300).writeV 0 1)) = true ∧
    ends (fun t => t.status != .running && t.faultRec.kind != .none) (exec .ret State.reset) = true ∧
    ends (fun t => t.tone != true) (exec .ret { State.reset with tone := true }) = true := by decide

theorem witness_EveryStepKeepsTheInvariant :
    ∃ t, (placed 0x1ABC).Inv ∧ step (placed 0x1ABC) = .next t ∧ t.status = .running := by
  obtain ⟨t, h, ht⟩ := next_of_ends (p := fun t => t.status == .running) (r := step (placed 0x1ABC)) (by decide)
  exact ⟨t, placed_inv _ (by decide), h, by simpa using ht⟩

theorem witness_EveryTransactionKeepsTheInvariant : (placed 0x1ABC).Inv := placed_inv _ (by decide)

/-- Both clauses: a RUNNING state, and a FAULTED one reached from it. -/
theorem witness_PortsShowStatusRecordAndTone :
    ((placed 0x00EE).Inv ∧ (placed 0x00EE).status = .running) ∧ (faulted.Inv ∧ faulted.status = .faulted) :=
  have h := placed_inv 0x00EE (by decide)
  ⟨⟨h, by decide⟩, ⟨h.1, h.2.1, h.2.2.1, rfl, by decide, fun _ => ⟨rfl, rfl⟩⟩, by decide⟩

theorem witness_SafeRunsAreSafeThroughout : SafeRun 2 (placed2 0x6000 0x6101) := by
  obtain ⟨t, ht, hp⟩ := next_of_ends
    (p := fun t => ends (fun u => u.status == .running) (step t)) (r := step (placed2 0x6000 0x6101)) (by decide)
  obtain ⟨u, hu, hr⟩ := next_of_ends hp
  refine ⟨u, ?_, by simpa using hr⟩
  simp only [Host.Core.run, core, ht, hu]

theorem witness_ResetPutsTheCoreInItsResetState : 79 < 80 ∧ (80 ≤ 4095 ∧ 4095 < 4096) := by decide

/-- A program of exactly 3584 bytes, and one byte more. -/
theorem witness_LoadProgramWritesOnlyTheProgram :
    State.reset.mem.wf ∧ (List.replicate 3584 (1 : Byte)).length ≤ 3584 ∧
    (List.replicate 3585 (1 : Byte)).length > 3584 := by
  rw [List.length_replicate, List.length_replicate]
  decide

end Sys2Proof.Tests
end

/-! The step cycle (40_step_cycle.md): what a step that does not fault does, the timers after it (R85) and `pc` after
each instruction (R86). -/

namespace Sys2Proof.Machine

open Sys2Proof.Claims

/-! ### Inversion: where a step that does not fault comes from -/

theorem finish_eq_next {r : Result} {t : State} :
    finish r = .next t ↔ ∃ u, r = .next u ∧ t = u.endStep := by
  cases r <;> simp [finish, eq_comm]

/-- The fetch answers an instruction exactly when the next step fetches it (R82, R83). -/
theorem State.fetchInstr_eq_ok {s : State} {i : Instr} : s.fetchInstr = .ok i ↔ s.Fetches i := by
  rw [State.fetchInstr_spec]
  unfold State.Fetches State.wordAtPc
  by_cases hpc : s.pc.toNat ≤ 4094
  · cases hd : decode (s.mem.get s.pc.toNat ++ s.mem.get (s.pc.toNat + 1)) <;> simp [hpc]
  · simp [hpc]

/-- When the fetch answers no instruction, it has taken a fault (R207). -/
theorem State.status_of_fetchInstr_error {s t : State} (h : s.fetchInstr = .error t) : t.status = .faulted := by
  rw [State.fetchInstr_spec] at h
  split at h
  · split at h <;> cases h
    rfl
  · cases h
    rfl

theorem State.Fetches.unique {s : State} {i j : Instr} (hi : s.Fetches i) (hj : s.Fetches j) : i = j :=
  Except.ok.inj (hi.2.symm.trans hj.2)

/-- A step that does not fault executed the fetched instruction without a fault, then ticked (R80). -/
theorem exists_exec_tick_of_step_running {s t : State} (hs : s.status = .running) (h : step s = .next t)
    (ht : t.status = .running) :
    ∃ i u, s.Fetches i ∧ exec i s = .next u ∧ u.status = .running ∧
      t = { u.tick with randPort := u.randPort.sampled } := by
  rw [step_of_running hs] at h
  cases hf : s.fetchInstr with
  | error e =>
    simp only [hf] at h
    cases h
    simp [State.status_of_fetchInstr_error hf] at ht
  | ok i =>
    simp only [hf] at h
    obtain ⟨u, hu, rfl⟩ := finish_eq_next.1 h
    rw [State.endStep_status] at ht
    exact ⟨i, u, State.fetchInstr_eq_ok.1 hf, hu, ht, u.endStep_of_running ht⟩

/-- Settles O10: the step is the execution of the fetched instruction followed by the tick, and the tick counts each
timer down as a number. -/
theorem timersTickOncePerStep : Obligations.TimersTickOncePerStep := by
  intro s t hs h ht
  obtain ⟨i, u, hi, hu, -, rfl⟩ := exists_exec_tick_of_step_running hs h ht
  have htone : u.tick.tone = true ↔ u.st.toNat = 1 := by
    simp [BitVec.toNat_eq]
  exact ⟨i, u, hi, hu, toNat_countDown u.dt, toNat_countDown u.st, htone⟩

/-! ### `pc` after each shape of meaning -/

section PcAfter

variable {s t u : State}

/-- A meaning that raises a fault does not end RUNNING (R207). -/
theorem State.raise_ne_next_of_running {kind : FaultKind} {i : Instr} {info : Nat} (hu : u.status = .running) :
    s.raise kind i info ≠ .next u := by
  rintro ⟨⟩
  cases hu

@[simp] theorem State.writeFrom_pc (k : Nat) (bs : List Byte) : (s.writeFrom k bs).pc = s.pc := by
  rw [State.writeFrom_frame]

/-- The key array read at a register value that names a key (R170). -/
theorem State.key_getElem?_of_le {b : Byte} (hb : b.toNat ≤ 15) :
    s.key[b.toNat]? = some (s.keyDown (BitVec.ofNat 4 b.toNat)) := by
  have hlt : b.toNat < 16 := by omega
  simp [State.keyDown, Nat.mod_eq_of_lt hlt, hlt]

/-- What Ex9E and ExA1 learn of the key index when it is accepted (R170, R171). -/
theorem keyIndex_eq_ok {b : Byte} {k : Nibble} :
    keyIndex b = .ok k ↔ b.toNat ≤ 15 ∧ k = BitVec.ofNat 4 b.toNat := by
  rw [keyIndex_spec]
  split
  · next hb => simp; omega
  · next hb => simp [eq_comm]; omega

theorem toNat_addrOperand (nnn : Addr12) : (addrOperand nnn).toNat = nnn.toNat := by
  have := nnn.isLt
  simp [addrOperand]
  omega

/-- The target of Bnnn does not wrap: it is at most `0x10FE` (R15). -/
theorem toNat_addrOperand_add_byteAsWord (nnn : Addr12) (b : Byte) :
    (addrOperand nnn + byteAsWord b).toNat = nnn.toNat + b.toNat := by
  have := nnn.isLt
  have := b.isLt
  rw [BitVec.toNat_add, toNat_addrOperand]
  simp [byteAsWord]
  omega

/-- A meaning that ends by advancing leaves `pc + 2`. -/
theorem toNat_pc_of_advance (hpc : s.pc.toNat ≤ 4094) (h : (.next t.advance : Result) = .next u) (ht : t.pc = s.pc) :
    u.pc.toNat = s.pc.toNat + 2 := by
  cases h
  rw [State.setPc_pc, ht, BitVec.toNat_add]
  simp
  omega

/-- A meaning that skips on a condition leaves `pc + 4` when it holds, else `pc + 2`. -/
theorem toNat_pc_of_skipIf {c : Bool} {P : Prop} [Decidable P] (hpc : s.pc.toNat ≤ 4094)
    (h : (.next (s.skipIf c) : Result) = .next u) (hc : c = true ↔ P) :
    u.pc.toNat = if P then s.pc.toNat + 4 else s.pc.toNat + 2 := by
  cases h
  by_cases hP : P
  · simp [hc.2 hP, hP]
    omega
  · simp [mt hc.1 hP, hP]
    omega

/-! ### `pc` after the instructions that can fault or wait -/

/-- RET leaves the popped address plus 2 (R101). -/
theorem toNat_pc_of_execRet (hstack : ∀ k : Fin 16, s.stack[k].toNat ≤ 4094) (h : execRet s = .next u)
    (hu : u.status = .running) : u.pc.toNat = s.stack[s.sp.val - 1].toNat + 2 := by
  unfold execRet at h
  split at h
  · exact absurd h (State.raise_ne_next_of_running hu)
  · next top t hpop =>
    cases h
    obtain ⟨hsp, rfl, -⟩ := State.pop_eq_some.1 hpop
    have htop := hstack ⟨s.sp.val - 1, by omega⟩
    simp only [Fin.getElem_fin] at htop
    rw [State.setPc_pc, BitVec.toNat_add]
    simp
    omega

/-- CALL leaves its target (R103). -/
theorem toNat_pc_of_execCall {nnn : Addr12} (h : execCall nnn s = .next u) (hu : u.status = .running) :
    u.pc.toNat = nnn.toNat := by
  unfold execCall at h
  split at h
  · exact absurd h (State.raise_ne_next_of_running hu)
  · cases h
    exact toNat_addrOperand nnn

/-- Fx0A holds `pc` while no key is down, else advances (R172). -/
theorem toNat_pc_of_execLdVxK {x : Nibble} (hpc : s.pc.toNat ≤ 4094) (h : execLdVxK x s = .next u) :
    u.pc.toNat = if ∃ k, s.keyDown k = true then s.pc.toNat + 2 else s.pc.toNat := by
  unfold execLdVxK at h
  split at h
  · next hnone =>
    cases h
    rw [if_neg (by simp [State.firstKeyDown_eq_none.1 hnone])]
  · next k hsome =>
    obtain ⟨-, hk, -⟩ := State.firstKeyDown_eq_some.1 hsome
    rw [if_pos ⟨_, hk⟩]
    exact toNat_pc_of_advance hpc h rfl

/-- The table of R86, row by row: no sum wraps, because `pc` was inside the store and so was every stacked address. -/
theorem toNat_pc_of_exec {i : Instr} (hpc : s.pc.toNat ≤ 4094) (hstack : ∀ k : Fin 16, s.stack[k].toNat ≤ 4094)
    (h : exec i s = .next u) (hu : u.status = .running) : u.pc.toNat = pcAfter i s := by
  cases i with
  | cls | ldVxKk | addVxKk | ldVxVy | orVxVy | andVxVy | xorVxVy | addVxVy | subVxVy | shrVx | subnVxVy | shlVx
  | ldI | rnd | ldVxDt | ldDtVx | ldStVx | addIVx | ldFVx => exact toNat_pc_of_advance hpc h rfl
  | drw | ldBVx | ldMemVx | ldVxMem =>
    simp only [exec, execDrw, execLdBVx, execLdMemVx, execLdVxMem] at h
    split at h
    · exact absurd h (State.raise_ne_next_of_running hu)
    · exact toNat_pc_of_advance hpc h (by simp)
  | seVxKk | seVxVy => exact toNat_pc_of_skipIf hpc h beq_iff_eq
  | sneVxKk | sneVxVy => exact toNat_pc_of_skipIf hpc h bne_iff_ne
  | skp | sknp =>
    simp only [exec, execSkp, execSknp] at h
    split at h
    · exact absurd h (State.raise_ne_next_of_running hu)
    · next k hk =>
      obtain ⟨hle, rfl⟩ := keyIndex_eq_ok.1 hk
      exact toNat_pc_of_skipIf hpc h (by simp [State.key_getElem?_of_le hle])
  | ldVxK => exact toNat_pc_of_execLdVxK hpc h
  | jp nnn => cases h; exact toNat_addrOperand nnn
  | call => exact toNat_pc_of_execCall h hu
  | jpV0 nnn => cases h; exact toNat_addrOperand_add_byteAsWord nnn _
  | ret => exact toNat_pc_of_execRet hstack h hu

end PcAfter

/-- Settles O13: the step's instruction is the fetched one, and the end of the step leaves the `pc` it wrote. -/
theorem pcAfterEachInstruction : Obligations.PcAfterEachInstruction := by
  intro s t i hinv hs hi h ht
  obtain ⟨-, -, hstack, -⟩ := hinv
  obtain ⟨j, u, hj, hu, hrun, rfl⟩ := exists_exec_tick_of_step_running hs h ht
  obtain rfl := hi.unique hj
  have hpc : u.pc.toNat = pcAfter i s := toNat_pc_of_exec hi.1 hstack hu hrun
  exact hpc

end Sys2Proof.Machine

/-! Control flow without a fault (41_control_flow.md): the unconditional jump (R102) and the skips (R104 to R107). -/

namespace Sys2Proof.Machine

open Sys2Proof.Claims

/-- Settles O18: the target of JP is its operand, which the 16 bits of `pc` hold unchanged. -/
theorem jumpSetsThePc : Obligations.JumpSetsThePc := by
  intro s nnn
  exact ⟨formatNnn_or 1 nnn, s.setPc (addrOperand nnn), rfl, toNat_addrOperand nnn, rfl⟩

/-- The word of a register-register instruction whose last digit is 0 (R62). -/
theorem formatXyn_zero_or (p x y : Nibble) :
    formatXyn p x y 0 = p.setWidth 16 <<< 12 ||| xBits x ||| yBits y :=
  (formatXyn_or p x y 0).trans BitVec.or_zero

/-- A meaning that skips on a test skips when the condition holds that the test decides. -/
theorem skipsWhen_of_exec_skipIf {i : Instr} {s : State} {c : Bool} {P : Prop}
    (h : exec i s = .next (s.skipIf c)) (hc : c = true ↔ P) : SkipsWhen i s P := by
  refine ⟨s.skipIf c, h, fun hP => ?_, fun hP => ?_, rfl⟩
  · rw [State.setPc_pc, if_pos (hc.2 hP)]
  · rw [State.setPc_pc, if_neg (mt hc.1 hP)]

/-- The test of 3xkk and 5xy0 compares the bytes as unsigned numbers (R104, R106). -/
theorem byte_beq_iff_toNat_eq {a b : Byte} : (a == b) = true ↔ a.toNat = b.toNat :=
  beq_iff_eq.trans BitVec.toNat_inj.symm

/-- The test of 4xkk and 9xy0 compares the bytes as unsigned numbers (R105, R107). -/
theorem byte_bne_iff_toNat_ne {a b : Byte} : (a != b) = true ↔ a.toNat ≠ b.toNat :=
  bne_iff_ne.trans BitVec.toNat_inj.not.symm

/-- Settles O23: each skip is one `skipIf` on its own comparison. -/
theorem skipsCompareRegisters : Obligations.SkipsCompareRegisters := by
  intro s x y kk
  refine ⟨⟨formatXkk_or 3 x kk, ?_⟩, ⟨formatXkk_or 4 x kk, ?_⟩, ⟨formatXyn_zero_or 5 x y, ?_⟩,
    ⟨formatXyn_zero_or 9 x y, ?_⟩⟩
  · exact skipsWhen_of_exec_skipIf rfl byte_beq_iff_toNat_eq
  · exact skipsWhen_of_exec_skipIf rfl byte_bne_iff_toNat_ne
  · exact skipsWhen_of_exec_skipIf rfl byte_beq_iff_toNat_eq
  · exact skipsWhen_of_exec_skipIf rfl byte_bne_iff_toNat_ne

end Sys2Proof.Machine

/-! Load, immediate addition and bitwise logic (42_load_alu.md R120 to R125): one register written, no flag. -/

namespace Sys2Proof.Machine

open Sys2Proof.Claims

/-- The word of a register-register instruction, with the first and the last digit joined into the opcode (R62). -/
theorem formatXyn_eq_opcode_or (p x y n : Nibble) :
    formatXyn p x y n = (p.setWidth 16 <<< 12 ||| n.setWidth 16) ||| xBits x ||| yBits y := by
  rw [formatXyn_or]
  unfold xBits yBits
  ac_rfl

/-- A meaning that writes `b` to register `x` and advances changes nothing else. -/
theorem writesOneRegister_of_exec_writeV {i : Instr} {s : State} {x : Nibble} {b : Byte}
    (h : exec i s = .next (s.writeV x b).advance) : WritesOneRegister i s x b :=
  ⟨(s.writeV x b).advance, h, rfl, fun r => State.readV_writeV s x r b, rfl⟩

/-- Settles O24: both loads are one `writeV`, of the immediate or of the register read. -/
theorem loadsWriteOneRegister : Obligations.LoadsWriteOneRegister := by
  intro s x y kk
  refine ⟨⟨formatXkk_or 6 x kk, ?_⟩, ⟨formatXyn_zero_or 8 x y, ?_⟩⟩
  · exact writesOneRegister_of_exec_writeV rfl
  · exact writesOneRegister_of_exec_writeV rfl

/-- Byte addition is addition of the numbers modulo 256 (R121). -/
theorem byte_add_eq_ofNat_mod (a b : Byte) : a + b = BitVec.ofNat 8 ((a.toNat + b.toNat) % 256) := by
  apply BitVec.eq_of_toNat_eq
  simp

/-- Settles O25: 7xkk is one `writeV` of the byte sum, which is the sum modulo 256. -/
theorem addImmediateWrapsWithoutFlag : Obligations.AddImmediateWrapsWithoutFlag := by
  intro s x kk
  refine ⟨formatXkk_or 7 x kk, ?_⟩
  rw [← byte_add_eq_ofNat_mod]
  exact writesOneRegister_of_exec_writeV rfl

/-- Settles O26: each logic operation is one `writeV` of its bitwise result, and no write of the flag register
follows. -/
theorem logicWritesOneRegisterWithoutFlag : Obligations.LogicWritesOneRegisterWithoutFlag := by
  intro s x y
  refine ⟨⟨formatXyn_eq_opcode_or 8 x y 1, ?_⟩, ⟨formatXyn_eq_opcode_or 8 x y 2, ?_⟩,
    ⟨formatXyn_eq_opcode_or 8 x y 3, ?_⟩⟩
  · exact writesOneRegister_of_exec_writeV rfl
  · exact writesOneRegister_of_exec_writeV rfl
  · exact writesOneRegister_of_exec_writeV rfl

end Sys2Proof.Machine

/-! The display (44_display.md): clearing the screen (R161). -/

namespace Sys2Proof.Machine

/-- Settles O40: the meaning of CLS writes the clear framebuffer, every pixel of which is 0, and advances. -/
theorem clearScreenClearsEveryPixel : Obligations.ClearScreenClearsEveryPixel := by
  refine ⟨rfl, fun s => ⟨(s.setFb Framebuffer.clear).advance, rfl, fun p _ => ?_, rfl⟩⟩
  rw [State.setPc_fb, State.setFb_fb]
  exact Framebuffer.pixel_clear p

end Sys2Proof.Machine

/-! The timer instructions (45_input_timers.md R173 to R175) and the tick of the same step (R80, R85). -/

namespace Sys2Proof.Machine

open Sys2Proof.Claims

/-- The word of a one-register instruction, with the first digit and the last two joined into the opcode (R62). -/
theorem formatX_eq_opcode_or (p x : Nibble) (kk : Byte) :
    formatX p x kk = (p.setWidth 16 <<< 12 ||| kk.setWidth 16) ||| xBits x := by
  rw [formatX_or]
  unfold xBits
  ac_rfl

/-- A step whose fetched instruction ends RUNNING is that instruction's effect, then the tick (R80). -/
theorem step_eq_tick_of_fetches {s u : State} {i : Instr} (hs : s.status = .running) (hi : s.Fetches i)
    (hu : exec i s = .next u) (hrun : u.status = .running) :
    step s = .next { u.tick with randPort := u.randPort.sampled } := by
  rw [step_of_running hs, State.fetchInstr_eq_ok.2 hi, ← u.endStep_of_running hrun]
  exact congrArg finish hu

/-- The tick raises `TONE` exactly when it counts `ST` down from 1 (R85). -/
theorem State.tick_tone_iff {s : State} : s.tick.tone = true ↔ s.st.toNat = 1 := by
  rw [State.tick_tone, decide_eq_true_iff, BitVec.toNat_eq]
  rfl

/-- Settles O46: each instruction is one register or timer write and an advance, and in a step the tick then counts
down the timers that this write left. -/
theorem timerInstructions : Obligations.TimerInstructions := by
  intro s x
  refine ⟨⟨formatX_eq_opcode_or 0xF x 0x07, writesOneRegister_of_exec_writeV rfl⟩,
    ⟨formatX_eq_opcode_or 0xF x 0x15, rfl⟩, ⟨formatX_eq_opcode_or 0xF x 0x18, rfl⟩, fun hs => ⟨?_, ?_, ?_⟩⟩
  · intro hi
    have hread : ((s.writeV x s.dt).advance).readV x = s.dt := by simp
    exact ⟨_, step_eq_tick_of_fetches hs hi rfl hs, hread, toNat_countDown s.dt⟩
  · intro hi
    exact ⟨_, step_eq_tick_of_fetches hs hi rfl hs, toNat_countDown (s.readV x)⟩
  · intro hi
    exact ⟨_, step_eq_tick_of_fetches hs hi rfl hs, toNat_countDown (s.readV x), State.tick_tone_iff⟩

end Sys2Proof.Machine

/-! The decoder against the encoder (30_encoding.md R64 to R69): each is the other's inverse on the legal words. -/

namespace Sys2Proof

/-- Settles O1: the fields that the decoder reads from a format's word are those put into it, and the secondary opcode
selects the instruction again. -/
theorem decodeOfEncodeIsTheInstruction : Obligations.DecodeOfEncodeIsTheInstruction := by
  intro i
  cases i with
  | cls | ret => rfl
  | jp | call | ldI | jpV0 => simp [encode, decode]
  | seVxKk | sneVxKk | ldVxKk | addVxKk | rnd => simp [encode, decode]
  | seVxVy => simp [encode, decode, decodeFamily5]
  | sneVxVy => simp [encode, decode, decodeFamily9]
  | ldVxVy | orVxVy | andVxVy | xorVxVy | addVxVy | subVxVy | shrVx | subnVxVy | shlVx =>
    simp [encode, decode, decodeFamily8]
  | drw => simp [encode, decode]
  | skp | sknp => simp [encode, decode, decodeFamilyE]
  | ldVxDt | ldVxK | ldDtVx | ldStVx | addIVx | ldFVx | ldBVx | ldMemVx | ldVxMem =>
    simp [encode, decode, decodeFamilyF]

/-! ### A word from its opcode and its operands -/

section Families

variable {op : Word} {i : Instr} {p : Nibble}

theorem formatNnn_of_primary (hp : primary op = p) : formatNnn p (fieldNnn op) = op :=
  hp ▸ formatNnn_fields op

theorem formatXkk_of_primary (hp : primary op = p) : formatXkk p (fieldX op) (fieldKk op) = op :=
  hp ▸ formatXkk_fields op

theorem formatXyn_of_primary_fieldN {n : Nibble} (hp : primary op = p) (hn : fieldN op = n) :
    formatXyn p (fieldX op) (fieldY op) n = op :=
  hp ▸ hn ▸ formatXyn_fields op

theorem formatX_of_primary_fieldKk {kk : Byte} (hp : primary op = p) (hk : fieldKk op = kk) :
    formatX p (fieldX op) kk = op :=
  hp ▸ hk ▸ formatX_fields op

/-! ### What each family of words decodes to -/

theorem encode_of_decodeFamily0 (h : decodeFamily0 op = .ok i) : encode i = op := by
  unfold decodeFamily0 at h
  split at h
  · next e => cases h; exact e.symm
  · split at h
    · next e => cases h; exact e.symm
    · cases h

theorem encode_of_decodeFamily5 (hp : primary op = 5) (h : decodeFamily5 op = .ok i) : encode i = op := by
  unfold decodeFamily5 at h
  split at h
  · next hn => cases h; exact formatXyn_of_primary_fieldN hp hn
  · cases h

theorem encode_of_decodeFamily8 (hp : primary op = 8) (h : decodeFamily8 op = .ok i) : encode i = op := by
  unfold decodeFamily8 at h
  split at h
  case h_10 => cases h
  all_goals
    next hn => cases h; exact formatXyn_of_primary_fieldN hp hn

theorem encode_of_decodeFamily9 (hp : primary op = 9) (h : decodeFamily9 op = .ok i) : encode i = op := by
  unfold decodeFamily9 at h
  split at h
  · next hn => cases h; exact formatXyn_of_primary_fieldN hp hn
  · cases h

theorem encode_of_decodeFamilyE (hp : primary op = 0xE) (h : decodeFamilyE op = .ok i) : encode i = op := by
  unfold decodeFamilyE at h
  split at h
  case h_3 => cases h
  all_goals
    next hk => cases h; exact formatX_of_primary_fieldKk hp hk

theorem encode_of_decodeFamilyF (hp : primary op = 0xF) (h : decodeFamilyF op = .ok i) : encode i = op := by
  unfold decodeFamilyF at h
  split at h
  case h_10 => cases h
  all_goals
    next hk => cases h; exact formatX_of_primary_fieldKk hp hk

end Families

/-- A word whose primary opcode is none of 0 to 0xE is of the last family. -/
theorem nibble_eq_15 (p : Nibble) : p ≠ 0 → p ≠ 1 → p ≠ 2 → p ≠ 3 → p ≠ 4 → p ≠ 5 → p ≠ 6 → p ≠ 7 → p ≠ 8 →
    p ≠ 9 → p ≠ 0xA → p ≠ 0xB → p ≠ 0xC → p ≠ 0xD → p ≠ 0xE → p = 0xF := by
  bv_omega

/-- Settles O2: the word is its fields in the format of its family, and the decoder drops none of them. -/
theorem encodeOfDecodeIsTheWord : Obligations.EncodeOfDecodeIsTheWord := by
  intro op i h
  unfold decode at h
  split at h
  case h_1 => exact encode_of_decodeFamily0 h
  case h_2 hp | h_3 hp | h_11 hp | h_12 hp => cases h; exact formatNnn_of_primary hp
  case h_4 hp | h_5 hp | h_7 hp | h_8 hp | h_13 hp => cases h; exact formatXkk_of_primary hp
  case h_6 hp => exact encode_of_decodeFamily5 hp h
  case h_9 hp => exact encode_of_decodeFamily8 hp h
  case h_10 hp => exact encode_of_decodeFamily9 hp h
  case h_14 hp => cases h; exact formatXyn_of_primary_fieldN hp rfl
  case h_15 hp => exact encode_of_decodeFamilyE hp h
  case h_16 h0 h1 h2 h3 h4 h5 h6 h7 h8 h9 hA hB hC hD hE =>
    exact encode_of_decodeFamilyF (nibble_eq_15 _ h0 h1 h2 h3 h4 h5 h6 h7 h8 h9 hA hB hC hD hE) h

end Sys2Proof

/-! The opcode map (30_encoding.md R66) and the illegal words (R67). -/

namespace Sys2Proof

open Laws.EncodedInTable in
/-- Every instruction's word is its row's (R66). -/
theorem encodedInTable : ∀ i : Instr, Statement i
  | .cls => cls
  | .ret => ret
  | .jp nnn => jp nnn
  | .call nnn => call nnn
  | .seVxKk x kk => seVxKk x kk
  | .sneVxKk x kk => sneVxKk x kk
  | .seVxVy x y => seVxVy x y
  | .ldVxKk x kk => ldVxKk x kk
  | .addVxKk x kk => addVxKk x kk
  | .ldVxVy x y => ldVxVy x y
  | .orVxVy x y => orVxVy x y
  | .andVxVy x y => andVxVy x y
  | .xorVxVy x y => xorVxVy x y
  | .addVxVy x y => addVxVy x y
  | .subVxVy x y => subVxVy x y
  | .shrVx x y => shrVx x y
  | .subnVxVy x y => subnVxVy x y
  | .shlVx x y => shlVx x y
  | .sneVxVy x y => sneVxVy x y
  | .ldI nnn => ldI nnn
  | .jpV0 nnn => jpV0 nnn
  | .rnd x kk => rnd x kk
  | .drw x y n => drw x y n
  | .skp x => skp x
  | .sknp x => sknp x
  | .ldVxDt x => ldVxDt x
  | .ldVxK x => ldVxK x
  | .ldDtVx x => ldDtVx x
  | .ldStVx x => ldStVx x
  | .addIVx x => addIVx x
  | .ldFVx x => ldFVx x
  | .ldBVx x => ldBVx x
  | .ldMemVx x => ldMemVx x
  | .ldVxMem x => ldVxMem x

/-- One instruction of each row, in the table's order. -/
def oneOfEachRow : List Instr :=
  [.cls, .ret, .jp 0, .call 0, .seVxKk 0 0, .sneVxKk 0 0, .seVxVy 0 0, .ldVxKk 0 0, .addVxKk 0 0, .ldVxVy 0 0,
   .orVxVy 0 0, .andVxVy 0 0, .xorVxVy 0 0, .addVxVy 0 0, .subVxVy 0 0, .shrVx 0 0, .subnVxVy 0 0, .shlVx 0 0,
   .sneVxVy 0 0, .ldI 0, .jpV0 0, .rnd 0 0, .drw 0 0 0, .skp 0, .sknp 0, .ldVxDt 0, .ldVxK 0, .ldDtVx 0, .ldStVx 0,
   .addIVx 0, .ldFVx 0, .ldBVx 0, .ldMemVx 0, .ldVxMem 0]

/-- The opcode map has no row but those of the instructions (R66). -/
theorem opcodeTable_eq_map_row : opcodeTable = oneOfEachRow.map Instr.row := rfl

/-! ### What a masked match says of the fields -/

section Masked

variable {op w : Word}

theorem primary_eq_of_and_F000 (h : op &&& 0xF000 = w &&& 0xF000) : primary op = primary w := by
  rw [and_F000, and_F000] at h
  simpa using congrArg primary h

theorem primary_fieldN_eq_of_and_F00F (h : op &&& 0xF00F = w &&& 0xF00F) :
    primary op = primary w ∧ fieldN op = fieldN w := by
  rw [and_F00F, and_F00F] at h
  exact ⟨by simpa using congrArg primary h, by simpa using congrArg fieldN h⟩

theorem primary_fieldKk_eq_of_and_F0FF (h : op &&& 0xF0FF = w &&& 0xF0FF) :
    primary op = primary w ∧ fieldKk op = fieldKk w := by
  rw [and_F0FF, and_F0FF] at h
  exact ⟨by simpa using congrArg primary h, by simpa using congrArg fieldKk h⟩

/-- A word that matches the row of `i` decodes to an instruction of that row: under the mask it is the word of `i`, so
its fields select the same arm of the decoder (R64, R66). -/
theorem exists_decode_of_masked {i : Instr} (h : op &&& i.row.maskBits = i.row.matchBits) :
    ∃ j, decode op = .ok j ∧ j.row = i.row := by
  have hi : op &&& i.row.maskBits = encode i &&& i.row.maskBits := h.trans (encodedInTable i).2.symm
  cases i with
  | cls | ret =>
    obtain rfl := (BitVec.and_allOnes (x := op)).symm.trans h
    exact ⟨_, rfl, rfl⟩
  | jp | call | seVxKk | sneVxKk | ldVxKk | addVxKk | ldI | jpV0 | rnd | drw =>
    have hp := primary_eq_of_and_F000 hi
    simp only [encode, primary_formatNnn, primary_formatXkk, primary_formatXyn] at hp
    simp only [decode, hp]
    exact ⟨_, rfl, rfl⟩
  | seVxVy | ldVxVy | orVxVy | andVxVy | xorVxVy | addVxVy | subVxVy | shrVx | subnVxVy | shlVx | sneVxVy =>
    obtain ⟨hp, hn⟩ := primary_fieldN_eq_of_and_F00F hi
    simp only [encode, primary_formatXyn, fieldN_formatXyn] at hp hn
    simp only [decode, hp, decodeFamily5, decodeFamily8, decodeFamily9, hn]
    exact ⟨_, rfl, rfl⟩
  | skp | sknp | ldVxDt | ldVxK | ldDtVx | ldStVx | addIVx | ldFVx | ldBVx | ldMemVx | ldVxMem =>
    obtain ⟨hp, hk⟩ := primary_fieldKk_eq_of_and_F0FF hi
    simp only [encode, primary_formatX, fieldKk_formatX] at hp hk
    simp only [decode, hp, decodeFamilyE, decodeFamilyF, hk]
    exact ⟨_, rfl, rfl⟩

/-- The same, for a row as the table gives it. -/
theorem exists_decode_of_mem_opcodeTable {r : OpcodeRow} (hr : r ∈ opcodeTable)
    (h : op &&& r.maskBits = r.matchBits) : ∃ i, decode op = .ok i ∧ i.row = r := by
  rw [opcodeTable_eq_map_row, List.mem_map] at hr
  obtain ⟨i, -, rfl⟩ := hr
  exact exists_decode_of_masked h

/-- A word that decodes to an instruction matches that instruction's row. -/
theorem masked_of_decode {i : Instr} (h : decode op = .ok i) : op &&& i.row.maskBits = i.row.matchBits := by
  have hrow := (encodedInTable i).2
  rwa [encodeOfDecodeIsTheWord op i h] at hrow

end Masked

/-- Settles O3: a word that matches a row decodes into it, so that a word which matches two rows decodes into both, and
they are the same row. -/
theorem wordIsInstructionExactlyWhenMaskedMatch : Obligations.WordIsInstructionExactlyWhenMaskedMatch := by
  refine ⟨rfl, fun op i h => ⟨(encodedInTable i).1, masked_of_decode h⟩, fun r hr op h =>
    exists_decode_of_mem_opcodeTable hr h, fun r hr q hq op h h' => ?_⟩
  obtain ⟨i, hi, rfl⟩ := exists_decode_of_mem_opcodeTable hr h
  obtain ⟨j, hj, rfl⟩ := exists_decode_of_mem_opcodeTable hq h'
  cases hi.symm.trans hj
  rfl

/-- A word is well formed exactly when the decoder answers an instruction (R66, R67). -/
theorem wellFormedWord_iff {op : Word} : wellFormedWord op = true ↔ ∃ i, decode op = .ok i := by
  unfold wellFormedWord OpcodeRow.holds
  rw [List.any_eq_true]
  constructor
  · rintro ⟨r, hr, h⟩
    obtain ⟨i, hi, -⟩ := exists_decode_of_mem_opcodeTable hr (beq_iff_eq.1 h)
    exact ⟨i, hi⟩
  · rintro ⟨i, hi⟩
    exact ⟨i.row, (encodedInTable i).1, beq_iff_eq.2 (masked_of_decode hi)⟩

theorem wellFormedWord_eq_false_iff {op : Word} : wellFormedWord op = false ↔ ∃ c, decode op = .error c := by
  rw [← Bool.not_eq_true, wellFormedWord_iff]
  cases decode op <;> simp

/-! ### The illegal words, class by class (R67) -/

section Illegal

variable {op : Word} {c : IllegalWord}

/-- A word is illegal only by the selector of its family. -/
theorem decode_eq_error : decode op = .error c ↔
    (primary op = 0x0 ∧ decodeFamily0 op = .error c) ∨ (primary op = 0x5 ∧ decodeFamily5 op = .error c) ∨
    (primary op = 0x8 ∧ decodeFamily8 op = .error c) ∨ (primary op = 0x9 ∧ decodeFamily9 op = .error c) ∨
    (primary op = 0xE ∧ decodeFamilyE op = .error c) ∨ (primary op = 0xF ∧ decodeFamilyF op = .error c) := by
  unfold decode
  split
  case h_16 h0 h1 h2 h3 h4 h5 h6 h7 h8 h9 hA hB hC hD hE =>
    simp [nibble_eq_15 _ h0 h1 h2 h3 h4 h5 h6 h7 h8 h9 hA hB hC hD hE]
  all_goals
    next hp => simp [hp]

theorem primary_eq_iff {p : Nibble} : primary op = p ↔ op.toNat / 0x1000 = p.toNat := by
  rw [← BitVec.toNat_inj, toNat_primary]

theorem fieldN_eq_iff {n : Nibble} : fieldN op = n ↔ op.toNat % 16 = n.toNat := by
  rw [← BitVec.toNat_inj, toNat_fieldN]

theorem fieldKk_eq_iff {kk : Byte} : fieldKk op = kk ↔ op.toNat % 256 = kk.toNat := by
  rw [← BitVec.toNat_inj, toNat_fieldKk]

theorem decodeFamily0_eq_error : decodeFamily0 op = .error c ↔ .family0 = c ∧ op ≠ 0x00E0 ∧ op ≠ 0x00EE := by
  unfold decodeFamily0
  split
  · next h => simp [h]
  · split
    · next h => simp [h]
    · next h h' => simp only [Except.error.injEq, ne_eq, h, h', not_false_eq_true, and_true]

theorem decodeFamily5_eq_error : decodeFamily5 op = .error c ↔ .family5 = c ∧ op.toNat % 16 ≠ 0 := by
  unfold decodeFamily5
  split
  · next h => simp [fieldN_eq_iff.1 h]
  · next h => simpa using fun _ => mt fieldN_eq_iff.2 h

theorem decodeFamily9_eq_error : decodeFamily9 op = .error c ↔ .family9 = c ∧ op.toNat % 16 ≠ 0 := by
  unfold decodeFamily9
  split
  · next h => simp [fieldN_eq_iff.1 h]
  · next h => simpa using fun _ => mt fieldN_eq_iff.2 h

theorem decodeFamily8_eq_error :
    decodeFamily8 op = .error c ↔ .family8 = c ∧ op.toNat % 16 ∈ [8, 9, 0xA, 0xB, 0xC, 0xD, 0xF] := by
  unfold decodeFamily8
  split
  case h_10 h0 h1 h2 h3 h4 h5 h6 h7 hE =>
    simp only [imp_false, fieldN_eq_iff, BitVec.toNat_ofNat, Nat.reducePow, Nat.reduceMod] at h0 h1 h2 h3 h4 h5 h6 h7 hE
    have hmem : op.toNat % 16 ∈ [8, 9, 0xA, 0xB, 0xC, 0xD, 0xF] := by
      simp only [List.mem_cons, List.not_mem_nil]
      omega
    simp only [Except.error.injEq, hmem, and_true]
  all_goals
    next hn => simp [fieldN_eq_iff.1 hn]

theorem decodeFamilyE_eq_error :
    decodeFamilyE op = .error c ↔ .familyE = c ∧ op.toNat % 256 ∉ [0x9E, 0xA1] := by
  unfold decodeFamilyE
  split
  case h_3 h9E hA1 =>
    simp only [imp_false, fieldKk_eq_iff, BitVec.toNat_ofNat, Nat.reducePow, Nat.reduceMod] at h9E hA1
    simp [h9E, hA1]
  all_goals
    next hk => simp [fieldKk_eq_iff.1 hk]

theorem decodeFamilyF_eq_error : decodeFamilyF op = .error c ↔
    .familyF = c ∧ op.toNat % 256 ∉ [0x07, 0x0A, 0x15, 0x18, 0x1E, 0x29, 0x33, 0x55, 0x65] := by
  unfold decodeFamilyF
  split
  case h_10 h07 h0A h15 h18 h1E h29 h33 h55 h65 =>
    simp only [imp_false, fieldKk_eq_iff, BitVec.toNat_ofNat, Nat.reducePow, Nat.reduceMod]
      at h07 h0A h15 h18 h1E h29 h33 h55 h65
    simp [h07, h0A, h15, h18, h1E, h29, h33, h55, h65]
  all_goals
    next hk => simp [fieldKk_eq_iff.1 hk]

end Illegal

/-- Settles O4: a word is rejected in the arm of its primary opcode only, and there exactly when its selector is none
of the family's. -/
theorem illegalWordsAreRejectedByClass : Obligations.IllegalWordsAreRejectedByClass := by
  intro op
  have h0 : op.toNat / 0x1000 = 0 ↔ op.toNat < 0x1000 := by omega
  simp [decode_eq_error, decodeFamily0_eq_error, decodeFamily5_eq_error, decodeFamily8_eq_error,
    decodeFamily9_eq_error, decodeFamilyE_eq_error, decodeFamilyF_eq_error, primary_eq_iff, h0]

/-- Settles O5: sixteen closed runs of the decoder. -/
theorem exampleWordsDecode : Obligations.ExampleWordsDecode := by
  unfold Obligations.ExampleWordsDecode
  decide

end Sys2Proof

/-! What an instruction can do (60_exceptions.md R200 to R207, 10_state.md section 1): it raises the fault that its rule
names, with no other effect, or it completes and changes only the state that its rule names. -/

namespace Sys2Proof.Machine

open Sys2Proof.Claims

/-! ### The meanings that can raise a fault, outcome by outcome -/

section Meanings

variable {s : State} {x y n : Nibble} {nnn : Addr12}

theorem execRet_of_sp_eq_zero (h : s.sp.val = 0) : execRet s = s.raise .stackUnderflow .ret 0 := by
  simp only [execRet, State.pop_eq_none.2 h]

theorem execRet_of_sp_pos (h : 0 < s.sp.val) : execRet s =
    .next (State.setPc { s with sp := ⟨s.sp.val - 1, by omega⟩ } (s.stack[s.sp.val - 1] + 2)) := by
  simp only [execRet, State.pop_eq_some.2 ⟨h, rfl, rfl⟩]

theorem execCall_of_sp_eq_16 (h : s.sp.val = 16) : execCall nnn s = s.raise .stackOverflow (.call nnn) 0 := by
  simp only [execCall, State.pushPc_eq_none.2 h]

theorem execCall_of_sp_lt_16 (h : s.sp.val < 16) : execCall nnn s = .next (State.setPc
    { s with stack := s.stack.set s.sp.val s.pc, sp := ⟨s.sp.val + 1, by omega⟩ } (addrOperand nnn)) := by
  simp only [execCall, State.pushPc_eq_some.2 ⟨h, rfl⟩]

theorem execSkp_of_gt (h : (s.readV x).toNat > 15) :
    execSkp x s = s.raise .keyIndexOutOfRange (.skp x) (s.readV x).toNat := by
  simp only [execSkp, keyIndex_spec, if_pos h]

theorem execSkp_of_le (h : (s.readV x).toNat ≤ 15) :
    execSkp x s = .next (s.skipIf (s.keyDown (BitVec.ofNat 4 (s.readV x).toNat))) := by
  simp only [execSkp, keyIndex_eq_ok.2 ⟨h, rfl⟩]

theorem execSknp_of_gt (h : (s.readV x).toNat > 15) :
    execSknp x s = s.raise .keyIndexOutOfRange (.sknp x) (s.readV x).toNat := by
  simp only [execSknp, keyIndex_spec, if_pos h]

theorem execSknp_of_le (h : (s.readV x).toNat ≤ 15) :
    execSknp x s = .next (s.skipIf (!s.keyDown (BitVec.ofNat 4 (s.readV x).toNat))) := by
  simp only [execSknp, keyIndex_eq_ok.2 ⟨h, rfl⟩]

/-- The whole drawing that Dxyn makes at `s` (44_display.md R162). -/
def State.drawing (s : State) (x y n : Nibble) : Drawing :=
  drawRows (s.readV x).toNat (s.readV y).toNat 0 (s.mem.getMany s.indexAddr n.toNat) ⟨s.fb, false⟩

theorem execDrw_of_inside (h : n.toNat = 0 ∨ s.index.toNat + n.toNat ≤ 4096) : execDrw x y n s =
    .next ((s.setFb (s.drawing x y n).fb).writeV regF (flagByte (s.drawing x y n).collision)).advance := by
  simp only [execDrw, loadBytes_ok (m := s.mem) (a := s.indexAddr) h]
  rfl

theorem execDrw_of_outside (h : 0 < n.toNat) (h' : 4096 < s.index.toNat + n.toNat) :
    execDrw x y n s = s.raise .outOfBounds (.drw x y n) (max s.index.toNat 4096) := by
  simp only [execDrw, loadBytes_error (m := s.mem) (a := s.indexAddr) h h']
  rfl

theorem execLdBVx_of_inside (h : s.index.toNat + 2 < 4096) : execLdBVx x s =
    .next (s.setMem (s.mem.putMany s.index.toNat (decimalDigits (s.readV x)))).advance := by
  have hlen : s.indexAddr + (decimalDigits (s.readV x)).length ≤ 4096 := by
    rw [length_decimalDigits]; exact h
  simp only [execLdBVx, storeBytes_ok hlen]
  rfl

theorem execLdBVx_of_outside (h : s.index.toNat + 2 ≥ 4096) :
    execLdBVx x s = s.raise .outOfBounds (.ldBVx x) (max s.index.toNat 4096) := by
  have hlen : 4096 < s.indexAddr + (decimalDigits (s.readV x)).length := by
    rw [length_decimalDigits]; exact Nat.lt_succ_of_le h
  simp only [execLdBVx, storeBytes_error (by simp) hlen]
  rfl

theorem execLdMemVx_of_inside (h : s.index.toNat + x.toNat < 4096) :
    execLdMemVx x s = .next (s.setMem (s.mem.putMany s.index.toNat (s.firstRegs x))).advance := by
  have hlen : s.indexAddr + (s.firstRegs x).length ≤ 4096 := by
    rw [State.length_firstRegs]; exact h
  simp only [execLdMemVx, storeBytes_ok hlen]
  rfl

theorem execLdMemVx_of_outside (h : s.index.toNat + x.toNat ≥ 4096) :
    execLdMemVx x s = s.raise .outOfBounds (.ldMemVx x) (max s.index.toNat 4096) := by
  have hlen : 4096 < s.indexAddr + (s.firstRegs x).length := by
    rw [State.length_firstRegs]; exact Nat.lt_succ_of_le h
  simp only [execLdMemVx, storeBytes_error (by simp) hlen]
  rfl

theorem execLdVxMem_of_inside (h : s.index.toNat + x.toNat < 4096) :
    execLdVxMem x s = .next (s.writeFrom 0 (s.mem.getMany s.index.toNat (x.toNat + 1))).advance := by
  have hlen : s.indexAddr + regCount x ≤ 4096 := h
  simp only [execLdVxMem, loadBytes_ok (m := s.mem) (.inr hlen)]
  rfl

theorem execLdVxMem_of_outside (h : s.index.toNat + x.toNat ≥ 4096) :
    execLdVxMem x s = s.raise .outOfBounds (.ldVxMem x) (max s.index.toNat 4096) := by
  have hpos : 0 < regCount x := Nat.succ_pos x.toNat
  have hlen : 4096 < s.indexAddr + regCount x := Nat.lt_succ_of_le h
  simp only [execLdVxMem, loadBytes_error (m := s.mem) hpos hlen]
  rfl

end Meanings

/-! ### When an instruction raises no fault -/

section Causes

variable {s : State} {x y n : Nibble} {nnn : Addr12}

theorem executeCause_ret_eq_none : executeCause .ret s = none ↔ 0 < s.sp.val := by
  simp [executeCause, Nat.pos_iff_ne_zero]

theorem executeCause_call_eq_none : executeCause (.call nnn) s = none ↔ s.sp.val < 16 := by
  simp [executeCause]
  omega

theorem executeCause_skp_eq_none : executeCause (.skp x) s = none ↔ (s.readV x).toNat ≤ 15 := by
  simp [executeCause]

theorem executeCause_sknp_eq_none : executeCause (.sknp x) s = none ↔ (s.readV x).toNat ≤ 15 := by
  simp [executeCause]

theorem executeCause_drw_eq_none :
    executeCause (.drw x y n) s = none ↔ n.toNat = 0 ∨ s.index.toNat + n.toNat ≤ 4096 := by
  simp only [executeCause, ite_eq_right_iff, reduceCtorEq, imp_false]
  omega

theorem executeCause_ldBVx_eq_none : executeCause (.ldBVx x) s = none ↔ s.index.toNat + 2 < 4096 := by
  simp [executeCause]
  omega

theorem executeCause_ldMemVx_eq_none : executeCause (.ldMemVx x) s = none ↔ s.index.toNat + x.toNat < 4096 := by
  simp [executeCause]

theorem executeCause_ldVxMem_eq_none : executeCause (.ldVxMem x) s = none ↔ s.index.toNat + x.toNat < 4096 := by
  simp [executeCause]

end Causes

/-! ### Raising a fault, or completing -/

section Outcomes

variable {i : Instr} {s t : State}

/-- An instruction that meets its own fault condition raises that fault (R200 to R205). -/
theorem exec_of_executeCause_eq_some {kind : FaultKind} {info : Nat} (h : executeCause i s = some (kind, info)) :
    exec i s = s.raise kind i info := by
  cases i with
  | ret =>
    obtain ⟨hc, ⟨⟩⟩ := Option.ite_none_right_eq_some.1 h
    exact execRet_of_sp_eq_zero hc
  | call =>
    obtain ⟨hc, ⟨⟩⟩ := Option.ite_none_right_eq_some.1 h
    exact execCall_of_sp_eq_16 hc
  | skp =>
    obtain ⟨hc, ⟨⟩⟩ := Option.ite_none_right_eq_some.1 h
    exact execSkp_of_gt hc
  | sknp =>
    obtain ⟨hc, ⟨⟩⟩ := Option.ite_none_right_eq_some.1 h
    exact execSknp_of_gt hc
  | drw =>
    obtain ⟨hc, ⟨⟩⟩ := Option.ite_none_right_eq_some.1 h
    exact execDrw_of_outside hc.1 (by omega)
  | ldBVx =>
    obtain ⟨hc, ⟨⟩⟩ := Option.ite_none_right_eq_some.1 h
    exact execLdBVx_of_outside hc
  | ldMemVx =>
    obtain ⟨hc, ⟨⟩⟩ := Option.ite_none_right_eq_some.1 h
    exact execLdMemVx_of_outside hc
  | ldVxMem =>
    obtain ⟨hc, ⟨⟩⟩ := Option.ite_none_right_eq_some.1 h
    exact execLdVxMem_of_outside hc
  | _ => cases h

/-- `t` is `s` after `i` without a fault, as far as the `written by` column of 10_state.md section 1 tells: only the
elements that the rule of `i` writes have changed. -/
def CompletedFrame (i : Instr) (s t : State) : Prop :=
  match i with
  | .jp _ | .jpV0 _ | .seVxKk _ _ | .sneVxKk _ _ | .seVxVy _ _ | .sneVxVy _ _ | .skp _ | .sknp _ =>
    t = { s with pc := t.pc }
  | .ldVxKk _ _ | .addVxKk _ _ | .ldVxVy _ _ | .orVxVy _ _ | .andVxVy _ _ | .xorVxVy _ _ | .addVxVy _ _ | .subVxVy _ _
  | .shrVx _ _ | .subnVxVy _ _ | .shlVx _ _ | .rnd _ _ | .ldVxDt _ | .ldVxK _ | .ldVxMem _ =>
    t = { s with v := t.v, pc := t.pc }
  | .ldI _ | .addIVx _ | .ldFVx _ => t = { s with index := t.index, pc := t.pc }
  | .ldDtVx _ => t = { s with dt := t.dt, pc := t.pc }
  | .ldStVx _ => t = { s with st := t.st, pc := t.pc }
  | .ret => t = { s with sp := t.sp, pc := t.pc }
  | .call _ => t = { s with stack := t.stack, sp := t.sp, pc := t.pc }
  | .cls => t = { s with fb := t.fb, pc := t.pc }
  | .drw _ _ _ => t = { s with fb := t.fb, v := t.v, pc := t.pc }
  | .ldBVx _ | .ldMemVx _ => t = { s with mem := t.mem, pc := t.pc }

/-- An instruction that does not meet its fault condition completes. -/
theorem exec_of_executeCause_eq_none (h : executeCause i s = none) :
    ∃ t, exec i s = .next t ∧ CompletedFrame i s t := by
  cases i with
  | ret => exact ⟨_, execRet_of_sp_pos (executeCause_ret_eq_none.1 h), rfl⟩
  | call => exact ⟨_, execCall_of_sp_lt_16 (executeCause_call_eq_none.1 h), rfl⟩
  | skp => exact ⟨_, execSkp_of_le (executeCause_skp_eq_none.1 h), rfl⟩
  | sknp => exact ⟨_, execSknp_of_le (executeCause_sknp_eq_none.1 h), rfl⟩
  | drw => exact ⟨_, execDrw_of_inside (executeCause_drw_eq_none.1 h), rfl⟩
  | ldBVx => exact ⟨_, execLdBVx_of_inside (executeCause_ldBVx_eq_none.1 h), rfl⟩
  | ldMemVx => exact ⟨_, execLdMemVx_of_inside (executeCause_ldMemVx_eq_none.1 h), rfl⟩
  | ldVxMem =>
    refine ⟨_, execLdVxMem_of_inside (executeCause_ldVxMem_eq_none.1 h), ?_⟩
    rw [State.writeFrom_frame]
    rfl
  | ldVxK x =>
    cases hk : s.firstKeyDown with
    | none => exact ⟨s, by simp only [exec, execLdVxK, hk], rfl⟩
    | some k => exact ⟨(s.writeV x (BitVec.ofNat 8 k)).advance, by simp only [exec, execLdVxK, hk], rfl⟩
  | _ => exact ⟨_, rfl, rfl⟩

/-- Everything an instruction can do. -/
theorem exec_eq_next (h : exec i s = .next t) :
    (∃ kind info, executeCause i s = some (kind, info) ∧ t = s.takeFault kind (encode i) info) ∨
    (executeCause i s = none ∧ CompletedFrame i s t) := by
  cases hc : executeCause i s with
  | none =>
    obtain ⟨u, hu, hframe⟩ := exec_of_executeCause_eq_none hc
    cases hu.symm.trans h
    exact .inr ⟨rfl, hframe⟩
  | some c =>
    have hr := exec_of_executeCause_eq_some (kind := c.1) (info := c.2) hc
    cases hr.symm.trans h
    exact .inl ⟨c.1, c.2, rfl, rfl⟩

/-! ### What completing leaves alone -/

theorem CompletedFrame.key_eq (h : CompletedFrame i s t) : t.key = s.key := by
  cases i <;> exact (congrArg State.key h :)

theorem CompletedFrame.randPort_eq (h : CompletedFrame i s t) : t.randPort = s.randPort := by
  cases i <;> exact (congrArg State.randPort h :)

theorem CompletedFrame.status_eq (h : CompletedFrame i s t) : t.status = s.status := by
  cases i <;> exact (congrArg State.status h :)

theorem CompletedFrame.faultRec_eq (h : CompletedFrame i s t) : t.faultRec = s.faultRec := by
  cases i <;> exact (congrArg State.faultRec h :)

theorem CompletedFrame.tone_eq (h : CompletedFrame i s t) : t.tone = s.tone := by
  cases i <;> exact (congrArg State.tone h :)

theorem CompletedFrame.index_ne (h : CompletedFrame i s t) (hne : t.index ≠ s.index) :
    (∃ nnn, i = .ldI nnn) ∨ ∃ x, i = .addIVx x ∨ i = .ldFVx x := by
  cases i with
  | ldI nnn => exact .inl ⟨nnn, rfl⟩
  | addIVx x => exact .inr ⟨x, .inl rfl⟩
  | ldFVx x => exact .inr ⟨x, .inr rfl⟩
  | _ => exact absurd (congrArg State.index h :) hne

theorem CompletedFrame.dt_ne (h : CompletedFrame i s t) (hne : t.dt ≠ s.dt) : ∃ x, i = .ldDtVx x := by
  cases i with
  | ldDtVx x => exact ⟨x, rfl⟩
  | _ => exact absurd (congrArg State.dt h :) hne

theorem CompletedFrame.st_ne (h : CompletedFrame i s t) (hne : t.st ≠ s.st) : ∃ x, i = .ldStVx x := by
  cases i with
  | ldStVx x => exact ⟨x, rfl⟩
  | _ => exact absurd (congrArg State.st h :) hne

theorem CompletedFrame.stack_ne (h : CompletedFrame i s t) (hne : t.stack ≠ s.stack) : ∃ nnn, i = .call nnn := by
  cases i with
  | call nnn => exact ⟨nnn, rfl⟩
  | _ => exact absurd (congrArg State.stack h :) hne

theorem CompletedFrame.sp_ne (h : CompletedFrame i s t) (hne : t.sp ≠ s.sp) :
    i = .ret ∨ ∃ nnn, i = .call nnn := by
  cases i with
  | ret => exact .inl rfl
  | call nnn => exact .inr ⟨nnn, rfl⟩
  | _ => exact absurd (congrArg State.sp h :) hne

theorem CompletedFrame.fb_ne (h : CompletedFrame i s t) (hne : t.fb ≠ s.fb) :
    i = .cls ∨ ∃ x y n, i = .drw x y n := by
  cases i with
  | cls => exact .inl rfl
  | drw x y n => exact .inr ⟨x, y, n, rfl⟩
  | _ => exact absurd (congrArg State.fb h :) hne

theorem CompletedFrame.mem_ne (h : CompletedFrame i s t) (hne : t.mem ≠ s.mem) :
    ∃ x, i = .ldBVx x ∨ i = .ldMemVx x := by
  cases i with
  | ldBVx x => exact ⟨x, .inl rfl⟩
  | ldMemVx x => exact ⟨x, .inr rfl⟩
  | _ => exact absurd (congrArg State.mem h :) hne

end Outcomes

end Sys2Proof.Machine

/-! Who writes which state (10_state.md sections 1 to 9): the registers, and from them VF (R11). -/

namespace Sys2Proof.Machine

open Sys2Proof.Claims

section Registers

variable {i : Instr} {s t : State} {x y : Nibble} {b c : Byte} {r : Nibble}

theorem eq_of_readV_writeV_ne (h : (s.writeV x b).readV r ≠ s.readV r) : r = x := by
  by_contra hr
  exact h (by rw [State.readV_writeV, if_neg hr])

theorem eq_or_eq_of_readV_writeV_writeV_ne (h : ((s.writeV x b).writeV y c).readV r ≠ s.readV r) :
    r = x ∨ r = y := by
  by_cases hy : r = y
  · exact .inr hy
  · rw [State.readV_writeV, if_neg hy] at h
    exact .inl (eq_of_readV_writeV_ne h)

/-- What Fx65 leaves in each register (R145). -/
theorem readV_writeFrom_getMany (m : Memory) (a : Nat) :
    (s.writeFrom 0 (m.getMany a (x.toNat + 1))).readV r =
      if r.toNat ≤ x.toNat then m.get (a + r.toNat) else s.readV r := by
  rw [State.readV_writeFrom _ _ _ (by rw [Memory.length_getMany]; omega)]
  by_cases hr : r.toNat ≤ x.toNat
  · rw [dif_pos (by rw [Memory.length_getMany]; omega), if_pos hr, Memory.getElem_getMany, Nat.sub_zero]
  · rw [dif_neg (by rw [Memory.length_getMany]; omega), if_neg hr]

/-- Fx65 writes no register above Vx (R145). -/
theorem toNat_le_of_readV_writeFrom_ne {m : Memory} {a : Nat}
    (h : (s.writeFrom 0 (m.getMany a (x.toNat + 1))).readV r ≠ s.readV r) : r.toNat ≤ x.toNat := by
  by_contra hr
  exact h (by rw [readV_writeFrom_getMany, if_neg hr])

/-- A completing instruction writes only the registers that its rule names. -/
theorem mayWriteRegister_of_exec (h : exec i s = .next t) (hc : executeCause i s = none)
    (hr : t.readV r ≠ s.readV r) : MayWriteRegister i r := by
  cases i with
  | ldVxKk | addVxKk | ldVxVy | orVxVy | andVxVy | xorVxVy | rnd | ldVxDt =>
    cases h
    exact eq_of_readV_writeV_ne hr
  | ldVxK =>
    simp only [exec, execLdVxK] at h
    split at h
    · cases h; exact absurd rfl hr
    · cases h; exact eq_of_readV_writeV_ne hr
  | addVxVy =>
    cases h
    exact eq_or_eq_of_readV_writeV_writeV_ne hr
  | subVxVy | shrVx | subnVxVy | shlVx =>
    cases h
    exact (eq_or_eq_of_readV_writeV_writeV_ne hr).symm
  | drw =>
    cases h.symm.trans (execDrw_of_inside (executeCause_drw_eq_none.1 hc))
    exact eq_of_readV_writeV_ne hr
  | ldVxMem =>
    cases h.symm.trans (execLdVxMem_of_inside (executeCause_ldVxMem_eq_none.1 hc))
    exact toNat_le_of_readV_writeFrom_ne hr
  | _ =>
    obtain ⟨u, hu, hframe⟩ := exec_of_executeCause_eq_none hc
    cases hu.symm.trans h
    exact absurd (congrArg (State.readV · r) hframe :) hr

end Registers

/-- Settles O51: an instruction that raises its fault changes the fault state alone, and one that completes changes what
its frame and its register writes name. -/
theorem eachStateIsWrittenOnlyByItsInstructions : Obligations.EachStateIsWrittenOnlyByItsInstructions := by
  intro i s t h
  obtain ⟨kind, info, hc, rfl⟩ | ⟨hc, hf⟩ := exec_eq_next h
  · exact ⟨rfl, rfl, fun r => absurd rfl, absurd rfl, absurd rfl, absurd rfl, absurd rfl, absurd rfl, absurd rfl,
      absurd rfl, fun _ => ⟨rfl, by simp [hc]⟩⟩
  · refine ⟨hf.key_eq, hf.randPort_eq, fun r => mayWriteRegister_of_exec h hc, hf.index_ne, hf.dt_ne, hf.st_ne,
      hf.stack_ne, hf.sp_ne, hf.fb_ne, hf.mem_ne, ?_⟩
    rintro (hne | hne | hne)
    · exact absurd hf.status_eq hne
    · exact absurd hf.faultRec_eq hne
    · exact absurd hf.tone_eq hne

/-- Settles O50: an instruction changes VF only where its rule names register 15 as written, as its `x` or as the
flag. -/
theorem onlyFlagInstructionsWriteVf : Obligations.OnlyFlagInstructionsWriteVf := by
  intro i s t h hne
  obtain ⟨-, -, hreg, -⟩ := eachStateIsWrittenOnlyByItsInstructions i s t h
  have hmay : MayWriteRegister i 15 := hreg 15 hne
  cases i with
  | addVxVy x y | subVxVy x y | shrVx x y | subnVxVy x y | shlVx x y => exact .inl ⟨x, y, by simp⟩
  | drw x y n => exact .inr (.inl ⟨x, y, n, rfl⟩)
  | ldVxKk x kk | addVxKk x kk | rnd x kk =>
    obtain rfl : 15 = x := hmay
    exact .inr (.inr (.inl ⟨kk, by simp⟩))
  | ldVxVy x y | orVxVy x y | andVxVy x y | xorVxVy x y =>
    obtain rfl : 15 = x := hmay
    exact .inr (.inr (.inr (.inl ⟨y, by simp⟩)))
  | ldVxDt x | ldVxK x =>
    obtain rfl : 15 = x := hmay
    simp
  | ldVxMem x =>
    have hle : (15 : Nibble).toNat ≤ x.toNat := hmay
    obtain rfl : x = 15 := BitVec.eq_of_toNat_eq (by simp at hle ⊢; omega)
    simp
  | _ => exact hmay.elim

end Sys2Proof.Machine

/-! The step (40_step_cycle.md R80 to R84): it takes the first fault in the order fetch, decode, execute, or runs the
fetched instruction and ticks (60_exceptions.md R207, R209). -/

namespace Sys2Proof.Machine

open Sys2Proof.Claims

/-- Settles O6: a step of a FAULTED machine answers its state, and so does a run, step after step. -/
theorem stepsOfFaultedMachineChangeNothing : Obligations.StepsOfFaultedMachineChangeNothing := by
  intro s hs
  refine ⟨step_of_faulted hs, fun n => ?_⟩
  induction n with
  | zero => rfl
  | succ n ih =>
    have hstep : core.step s = .next s := step_of_faulted hs
    simp only [Host.Core.run, hstep, ih]

section Step

variable {s : State} {i : Instr}

/-- The end of a fault that a step has taken: only the `rand` port moves (log entry 1). -/
theorem State.endStep_takeFault (kind : FaultKind) (op : Word) (info : Nat) :
    (s.takeFault kind op info).endStep = { s.takeFault kind op info with randPort := s.randPort.sampled } := rfl

/-- A step that fetches an instruction is its execution and the end of the step (R80). -/
theorem step_of_fetches {t : State} (hs : s.status = .running) (hi : s.Fetches i) (h : exec i s = .next t) :
    step s = .next t.endStep := by
  rw [step_of_running hs, State.fetchInstr_eq_ok.2 hi]
  exact congrArg finish h

/-- A step of a RUNNING machine with a cause to fault is the fault entry of that cause (R207, R209). -/
theorem step_of_faultCause_eq_some {kind : FaultKind} {op : Word} {info : Nat} (hs : s.status = .running)
    (h : faultCause s = some (kind, op, info)) :
    step s = .next { s.takeFault kind op info with randPort := s.randPort.sampled } := by
  rw [← State.endStep_takeFault]
  unfold faultCause at h
  split at h
  · next hpc =>
    cases h
    rw [step_of_running hs, State.fetchInstr_spec, if_neg (by omega)]
  · next hpc =>
    have hpc' : s.pc.toNat ≤ 4094 := by omega
    split at h
    · next c hd =>
      cases h
      rw [step_of_running hs, State.fetchInstr_spec, if_pos hpc']
      simp only [State.wordAtPc] at hd ⊢
      simp only [hd]
    · next i hd =>
      split at h
      · next k n hc =>
        cases h
        have hop : encode i = s.wordAtPc := encodeOfDecodeIsTheWord _ _ hd
        rw [← hop]
        exact step_of_fetches hs ⟨hpc', hd⟩ (exec_of_executeCause_eq_some hc)
      · cases h

/-- A step of a RUNNING machine without a cause to fault runs the fetched instruction to its end and ticks (R80). -/
theorem step_of_faultCause_eq_none (hs : s.status = .running) (h : faultCause s = none) :
    ∃ i u, s.Fetches i ∧ executeCause i s = none ∧ exec i s = .next u ∧ CompletedFrame i s u ∧
      step s = .next { u.tick with randPort := u.randPort.sampled } := by
  unfold faultCause at h
  split at h
  · cases h
  · next hpc =>
    split at h
    · cases h
    · next i hd =>
      split at h
      · cases h
      · next hc =>
        have hi : s.Fetches i := ⟨by omega, hd⟩
        obtain ⟨u, hu, hf⟩ := exec_of_executeCause_eq_none hc
        exact ⟨i, u, hi, hc, hu, hf, step_eq_tick_of_fetches hs hi hu (hf.status_eq.trans hs)⟩

theorem exists_step_eq_next (s : State) : ∃ t, step s = .next t := by
  cases hs : s.status with
  | faulted => exact ⟨s, step_of_faulted hs⟩
  | running =>
    cases hc : faultCause s with
    | none =>
      obtain ⟨i, u, -, -, -, -, h⟩ := step_of_faultCause_eq_none hs hc
      exact ⟨_, h⟩
    | some c => exact ⟨_, step_of_faultCause_eq_some hs hc⟩

theorem exists_exec_eq_next (i : Instr) (s : State) : ∃ t, exec i s = .next t := by
  cases hc : executeCause i s with
  | none =>
    obtain ⟨t, h, -⟩ := exec_of_executeCause_eq_none hc
    exact ⟨t, h⟩
  | some c => exact ⟨_, exec_of_executeCause_eq_some hc⟩

end Step

/-- Settles O14: with a cause to fault both answer the fault entry, without one the completed state. -/
theorem everyStepAnswersANextState : Obligations.EveryStepAnswersANextState :=
  ⟨exists_step_eq_next, exists_exec_eq_next⟩

/-- Settles O7: the two bytes at `pc` are the fetched word, so the step is `exec` and then the end of a step. -/
theorem stepRunsTheDecodedInstruction : Obligations.StepRunsTheDecodedInstruction := by
  intro s i hs hpc hd
  obtain ⟨t, ht⟩ := exists_exec_eq_next i s
  have hstep := step_of_fetches hs ⟨hpc, hd⟩ ht
  refine ⟨t, ht, fun hrun => ?_, fun hflt => ?_⟩
  · rw [hstep, t.endStep_of_running hrun]
    rfl
  · rw [hstep, t.endStep_of_faulted hflt]

/-- Settles O8: the check of two bytes fails from 4095 up, for the word read as for the step. -/
theorem fetchReadsTheWordOrFaults : Obligations.FetchReadsTheWordOrFaults := by
  refine ⟨fun m a => ⟨fun h => ?_, fun h => ?_⟩, fun s => ⟨fun h => ?_, fun h hs => ?_⟩⟩
  · exact ⟨m.get a ++ m.get (a + 1), by rw [loadWord_spec, if_pos (by omega)], rfl, toNat_append' _ _⟩
  · rw [loadWord_spec, if_neg (by omega)]
    congr 1
    split <;> omega
  · rw [loadWord_spec, if_pos h]
    rfl
  · exact step_of_faultCause_eq_some hs (if_pos h)

/-- Settles O9: an ill-formed word is one that the decoder rejects, which is the second cause to fault. -/
theorem illegalWordRaisesUnimplementedInstruction : Obligations.IllegalWordRaisesUnimplementedInstruction := by
  refine ⟨rfl, fun s hs hpc hw => ?_⟩
  obtain ⟨c, hd⟩ := wellFormedWord_eq_false_iff.1 hw
  have hcause : faultCause s = some (.unimplementedInstruction, s.wordAtPc, 0) := by
    simp [faultCause, hd]
    omega
  exact step_of_faultCause_eq_some hs hcause

/-- Settles O15: with a cause the step is a fault entry, and without one it ends RUNNING. -/
theorem stepFaultsExactlyOnTheListedConditions : Obligations.StepFaultsExactlyOnTheListedConditions := by
  intro s hs
  cases hc : faultCause s with
  | none =>
    obtain ⟨i, u, -, -, -, hf, h⟩ := step_of_faultCause_eq_none hs hc
    have hu : u.status = .running := hf.status_eq.trans hs
    exact ⟨_, h, by simp [hu]⟩
  | some c => exact ⟨_, step_of_faultCause_eq_some hs hc, by simp⟩

/-- The code that the port shows is the one of the table of R200. -/
theorem faultCode_code (kind : FaultKind) : FaultCode kind kind.code.toNat := by
  cases kind <;> simp [FaultCode, FaultKind.code]

theorem FaultKind.code_eq_zero_iff {kind : FaultKind} : kind.code.toNat = 0 ↔ kind = .none := by
  cases kind <;> simp [FaultKind.code]

/-- No cause to fault is the code of no fault. -/
theorem kind_ne_none_of_executeCause {i : Instr} {s : State} {kind : FaultKind} {info : Nat}
    (h : executeCause i s = some (kind, info)) : kind ≠ .none := by
  rintro rfl
  cases i with
  | ret | call | skp | sknp | drw | ldBVx | ldMemVx | ldVxMem => nomatch (Option.ite_none_right_eq_some.1 h).2
  | _ => cases h

theorem kind_ne_none_of_faultCause {s : State} {kind : FaultKind} {op : Word} {info : Nat}
    (h : faultCause s = some (kind, op, info)) : kind ≠ .none := by
  unfold faultCause at h
  split at h
  · cases h; nofun
  · split at h
    · cases h; nofun
    · split at h
      · next hc => cases h; exact kind_ne_none_of_executeCause hc
      · cases h

/-- Settles O16: a step that ends FAULTED had a cause, whose fault entry it is, and the ports show that entry. -/
theorem faultEntryIsPrecise : Obligations.FaultEntryIsPrecise := by
  intro s t hs h ht
  cases hc : faultCause s with
  | none =>
    obtain ⟨i, u, -, -, -, hf, h'⟩ := step_of_faultCause_eq_none hs hc
    cases h'.symm.trans h
    nomatch ht.symm.trans (hf.status_eq.trans hs)
  | some c =>
    obtain ⟨kind, op, info⟩ := c
    cases (step_of_faultCause_eq_some hs hc).symm.trans h
    have hcode : kind.code.toNat ≠ 0 := mt FaultKind.code_eq_zero_iff.1 (kind_ne_none_of_faultCause hc)
    refine ⟨kind, op, info, rfl, rfl, rfl, rfl, kind.code.toNat, faultCode_code kind, by omega, ?_⟩
    rw [BitVec.ofNat_toNat, BitVec.setWidth_eq]
    rfl

end Sys2Proof.Machine

/-! The invariant (10_state.md R15, R22, 60_exceptions.md R200, R207): it holds after reset, and every step and every
transaction keeps it. -/

namespace Sys2Proof.Machine

open Sys2Proof.Claims

/-- Settles O52: the reset store lists nothing and the reset record is the empty one. -/
theorem invariantHoldsAtReset : Obligations.InvariantHoldsAtReset :=
  ⟨by decide, by decide, by decide, rfl, by decide, nofun⟩

section FaultRecords

variable {i : Instr} {s : State} {kind : FaultKind} {op pc : Word} {info : Nat}

/-- The address that an access of the index register reports is outside the store and fits the record (R22). -/
theorem toNat_ofNat_max_index (w : Word) : 4096 ≤ (BitVec.ofNat 17 (max w.toNat 4096)).toNat ∧
    (BitVec.ofNat 17 (max w.toNat 4096)).toNat ≤ 65535 := by
  have := w.isLt
  rw [BitVec.toNat_ofNat, Nat.mod_eq_of_lt (by omega)]
  omega

/-- The key index that a skip reports is no key and fits the record (R22). -/
theorem toNat_ofNat_key_index {b : Byte} (h : b.toNat > 15) :
    15 < (BitVec.ofNat 17 b.toNat).toNat ∧ (BitVec.ofNat 17 b.toNat).toNat ≤ 255 := by
  have := b.isLt
  rw [BitVec.toNat_ofNat, Nat.mod_eq_of_lt (by omega)]
  omega

theorem consistent_of_executeCause (h : executeCause i s = some (kind, info)) :
    FaultRecord.Consistent ⟨kind, pc, op, BitVec.ofNat 17 info⟩ := by
  cases i with
  | ret | call =>
    obtain ⟨-, ⟨⟩⟩ := Option.ite_none_right_eq_some.1 h
    rfl
  | skp | sknp =>
    obtain ⟨hgt, ⟨⟩⟩ := Option.ite_none_right_eq_some.1 h
    exact toNat_ofNat_key_index hgt
  | drw | ldBVx | ldMemVx | ldVxMem =>
    obtain ⟨-, ⟨⟩⟩ := Option.ite_none_right_eq_some.1 h
    exact toNat_ofNat_max_index s.index
  | _ => cases h

theorem consistent_of_faultCause (h : faultCause s = some (kind, op, info)) :
    FaultRecord.Consistent ⟨kind, pc, op, BitVec.ofNat 17 info⟩ := by
  unfold faultCause at h
  split at h
  · cases h
    exact toNat_ofNat_max_index s.pc
  · split at h
    · next c hd =>
      cases h
      exact ⟨rfl, wellFormedWord_eq_false_iff.2 ⟨c, hd⟩⟩
    · split at h
      · next hc =>
        cases h
        exact consistent_of_executeCause hc
      · cases h

end FaultRecords

section Completing

variable {i : Instr} {s t : State}

/-- A completing instruction leaves the store in canonical form: only Fx33 and Fx55 write it, and inside it. -/
theorem mem_wf_of_exec (hm : s.mem.wf) (h : exec i s = .next t) (hf : CompletedFrame i s t)
    (hc : executeCause i s = none) : t.mem.wf := by
  by_cases he : t.mem = s.mem
  · rwa [he]
  · obtain ⟨x, rfl | rfl⟩ := hf.mem_ne he
    · have hin := executeCause_ldBVx_eq_none.1 hc
      cases h.symm.trans (execLdBVx_of_inside hin)
      exact Memory.wf_putMany hm (by rw [length_decimalDigits]; omega)
    · have hin := executeCause_ldMemVx_eq_none.1 hc
      cases h.symm.trans (execLdMemVx_of_inside hin)
      exact Memory.wf_putMany hm (by rw [State.length_firstRegs]; omega)

/-- Only CALL writes the stack, and it pushes an address that was fetched (R15, R103). -/
theorem stack_le_of_exec (hpc : s.pc.toNat ≤ 4094) (hstack : ∀ k : Fin 16, s.stack[k].toNat ≤ 4094)
    (h : exec i s = .next t) (hf : CompletedFrame i s t) (hc : executeCause i s = none) (k : Fin 16) :
    t.stack[k].toNat ≤ 4094 := by
  by_cases he : t.stack = s.stack
  · rw [he]; exact hstack k
  · obtain ⟨nnn, rfl⟩ := hf.stack_ne he
    cases h.symm.trans (execCall_of_sp_lt_16 (executeCause_call_eq_none.1 hc))
    simp only [State.setPc_stack, Fin.getElem_fin, Vector.getElem_set]
    split
    · exact hpc
    · exact hstack k

/-- The greatest `pc` of the table of R86 is that of Bnnn (R15). -/
theorem pcAfter_le (hpc : s.pc.toNat ≤ 4094) (hstack : ∀ k : Fin 16, s.stack[k].toNat ≤ 4094) :
    pcAfter i s ≤ 0x10FE := by
  cases i with
  | seVxKk | sneVxKk | seVxVy | sneVxVy | skp | sknp | ldVxK =>
    simp only [pcAfter]
    split <;> omega
  | jp nnn | call nnn =>
    have := nnn.isLt
    simp only [pcAfter]
    omega
  | jpV0 nnn =>
    have := nnn.isLt
    have := (s.readV 0).isLt
    simp only [pcAfter]
    omega
  | ret =>
    have htop := hstack ⟨s.sp.val - 1, by omega⟩
    simp only [Fin.getElem_fin] at htop
    simp only [pcAfter]
    omega
  | _ =>
    simp only [pcAfter]
    omega

end Completing

/-- Settles O53: a fault entry writes a consistent record and names `pc`; a completing instruction keeps the store, the
stack and `pc` in their limits, and the tick touches none of them. -/
theorem everyStepKeepsTheInvariant : Obligations.EveryStepKeepsTheInvariant := by
  intro s t hinv h
  cases hs : s.status with
  | faulted =>
    cases (step_of_faulted hs).symm.trans h
    exact hinv
  | running =>
    obtain ⟨hmem, hpc, hstack, hrec, hkind, hflt⟩ := hinv
    cases hc : faultCause s with
    | some c =>
      obtain ⟨kind, op, info⟩ := c
      cases (step_of_faultCause_eq_some hs hc).symm.trans h
      have hne : kind ≠ .none := kind_ne_none_of_faultCause hc
      exact ⟨hmem, hpc, hstack, consistent_of_faultCause hc, by simp [hne], fun _ => ⟨rfl, rfl⟩⟩
    | none =>
      obtain ⟨i, u, hi, hcause, hu, hf, h'⟩ := step_of_faultCause_eq_none hs hc
      cases h'.symm.trans h
      have hrun : u.status = .running := hf.status_eq.trans hs
      have hupc : u.pc.toNat ≤ 0x10FE := by
        rw [toNat_pc_of_exec hi.1 hstack hu hrun]
        exact pcAfter_le hi.1 hstack
      have hustack := stack_le_of_exec hi.1 hstack hu hf hcause
      have humem := mem_wf_of_exec hmem hu hf hcause
      refine ⟨humem, hupc, hustack, ?_, ?_, ?_⟩
      · exact (congrArg FaultRecord.Consistent hf.faultRec_eq).mpr hrec
      · simpa [hf.status_eq, hf.faultRec_eq] using hkind
      · intro hfl
        nomatch hfl.symm.trans hrun

/-! ### Transactions -/

/-- The step with a named byte is a step, from a state that differs in the `rand` port only (R31). -/
theorem stepWithRand_of_running {s : State} (rand : Byte) (hs : s.status = .running) :
    stepWithRand rand s = step (s.withRand rand) := by
  simp only [stepWithRand, hs]

theorem stepWithRand_of_faulted {s : State} (rand : Byte) (hs : s.status = .faulted) :
    stepWithRand rand s = .next s := by
  simp only [stepWithRand, hs, step_of_faulted]

theorem wellFormedProgram_iff {bytes : List Byte} : wellFormedProgram bytes = true ↔ bytes.length ≤ 3584 :=
  decide_eq_true_iff

theorem inv_loadProgram {s : State} (hinv : s.Inv) (bytes : List Byte) : (s.loadProgram bytes).2.Inv := by
  unfold State.loadProgram
  split
  · next hfit =>
    obtain ⟨hmem, hrest⟩ := hinv
    have hlen : bytes.length ≤ 3584 := wellFormedProgram_iff.1 hfit
    exact ⟨Memory.wf_putMany hmem (by simp only [Config.progBase]; omega), hrest⟩
  · exact hinv

/-- Every transaction answers a state, and keeps the invariant. -/
theorem exists_transact_eq_next_inv (c : Transaction) {s : State} (hinv : s.Inv) :
    ∃ t, transact c s = .next t ∧ t.Inv := by
  cases c with
  | reset => exact ⟨s.resetPort, rfl, invariantHoldsAtReset⟩
  | loadProgram bytes => exact ⟨_, rfl, inv_loadProgram hinv bytes⟩
  | setKey index pressed => exact ⟨s.setKey index pressed, rfl, hinv⟩
  | step rand =>
    cases hs : s.status with
    | faulted => exact ⟨s, stepWithRand_of_faulted rand hs, hinv⟩
    | running =>
      obtain ⟨t, ht⟩ := exists_step_eq_next (s.withRand rand)
      exact ⟨t, (stepWithRand_of_running rand hs).trans ht, everyStepKeepsTheInvariant (s.withRand rand) t hinv ht⟩

theorem transactAll_cons {c : Transaction} {cs : List Transaction} {s t : State} (h : transact c s = .next t) :
    transactAll (c :: cs) s = transactAll cs t := by
  simp only [transactAll, h]

/-- Settles O54: by induction on the sequence, one transaction at a time. -/
theorem everyTransactionKeepsTheInvariant : Obligations.EveryTransactionKeepsTheInvariant := by
  intro cs
  induction cs with
  | nil => exact fun s hinv => ⟨s, rfl, hinv⟩
  | cons c cs ih =>
    intro s hinv
    obtain ⟨t, ht, hinv'⟩ := exists_transact_eq_next_inv c hinv
    rw [transactAll_cons ht]
    exact ih t hinv'

/-- Short of a reset, one transaction on a FAULTED machine changes the keys or the store at most (R32, R51, R81). -/
theorem transact_of_faulted {c : Transaction} {s : State} (hs : s.status = .faulted) (hc : c ≠ .reset) :
    ∃ t, transact c s = .next t ∧ t = { s with key := t.key, mem := t.mem } := by
  cases c with
  | reset => exact absurd rfl hc
  | loadProgram bytes =>
    refine ⟨_, rfl, ?_⟩
    unfold State.loadProgram
    split <;> rfl
  | setKey index pressed => exact ⟨_, rfl, rfl⟩
  | step rand => exact ⟨s, stepWithRand_of_faulted rand hs, rfl⟩

/-- Settles O17: by induction on the sequence, since each transaction leaves the machine FAULTED; a reset gives the
reset state. -/
theorem onlyResetLeavesTheFaultedState : Obligations.OnlyResetLeavesTheFaultedState := by
  intro s hs
  refine ⟨fun cs => ?_, s.resetPort, rfl, rfl, rfl⟩
  induction cs generalizing s with
  | nil => exact fun _ => ⟨s, rfl, rfl⟩
  | cons c cs ih =>
    intro hcs
    obtain ⟨hc, hcs⟩ := List.ne_and_not_mem_of_not_mem_cons hcs
    obtain ⟨t, ht, hframe⟩ := transact_of_faulted hs hc.symm
    have hst : t.status = .faulted := (congrArg State.status hframe :).trans hs
    obtain ⟨u, hu, hframe'⟩ := ih t hst hcs
    refine ⟨u, (transactAll_cons ht).trans hu, hframe'.trans ?_⟩
    rw [hframe]

end Sys2Proof.Machine

/-! Runs of several steps: the `rand` port (10_state.md R31), runs that were safe to their end (60_exceptions.md R208),
waiting and the halt idiom (40_step_cycle.md R87, R88), and the tone (R29, R89). -/

namespace Sys2Proof.Machine

open Sys2Proof.Claims

/-! ### The `rand` port matters only to Cxkk -/

section Rand

variable {i : Instr} {s t : State}

/-- `s` with another `rand` port. -/
def State.withRandPort (s : State) (p : RandPort) : State := { s with randPort := p }

theorem State.writeFrom_withRandPort (p : RandPort) (k : Nat) (bs : List Byte) :
    (s.withRandPort p).writeFrom k bs = (s.writeFrom k bs).withRandPort p := by
  induction bs generalizing s k with
  | nil => rfl
  | cons b bs ih => exact ih (s := s.writeV (BitVec.ofNat 4 k) b) (k + 1)

theorem executeCause_withRandPort (p : RandPort) : executeCause i (s.withRandPort p) = executeCause i s := by
  cases i <;> rfl

theorem faultCause_withRandPort (p : RandPort) : faultCause (s.withRandPort p) = faultCause s := by
  simp only [faultCause, executeCause_withRandPort]
  rfl

/-- An instruction other than Cxkk does the same whatever is on the port, and hands the port on. -/
theorem exec_withRandPort (p : RandPort) (hi : ∀ x kk, i ≠ .rnd x kk) (h : exec i s = .next t)
    (hc : executeCause i s = none) : exec i (s.withRandPort p) = .next (t.withRandPort p) := by
  cases i with
  | rnd x kk => exact absurd rfl (hi x kk)
  | ret =>
    have hin := executeCause_ret_eq_none.1 hc
    cases h.symm.trans (execRet_of_sp_pos hin)
    exact execRet_of_sp_pos (s := s.withRandPort p) hin
  | call =>
    have hin := executeCause_call_eq_none.1 hc
    cases h.symm.trans (execCall_of_sp_lt_16 hin)
    exact execCall_of_sp_lt_16 (s := s.withRandPort p) hin
  | skp =>
    have hin := executeCause_skp_eq_none.1 hc
    cases h.symm.trans (execSkp_of_le hin)
    exact execSkp_of_le (s := s.withRandPort p) hin
  | sknp =>
    have hin := executeCause_sknp_eq_none.1 hc
    cases h.symm.trans (execSknp_of_le hin)
    exact execSknp_of_le (s := s.withRandPort p) hin
  | drw =>
    have hin := executeCause_drw_eq_none.1 hc
    cases h.symm.trans (execDrw_of_inside hin)
    exact execDrw_of_inside (s := s.withRandPort p) hin
  | ldBVx =>
    have hin := executeCause_ldBVx_eq_none.1 hc
    cases h.symm.trans (execLdBVx_of_inside hin)
    exact execLdBVx_of_inside (s := s.withRandPort p) hin
  | ldMemVx =>
    have hin := executeCause_ldMemVx_eq_none.1 hc
    cases h.symm.trans (execLdMemVx_of_inside hin)
    exact execLdMemVx_of_inside (s := s.withRandPort p) hin
  | ldVxMem =>
    have hin := executeCause_ldVxMem_eq_none.1 hc
    cases h.symm.trans (execLdVxMem_of_inside hin)
    refine (execLdVxMem_of_inside (s := s.withRandPort p) hin).trans ?_
    rw [State.writeFrom_withRandPort]
    rfl
  | ldVxK x =>
    have hkey : (s.withRandPort p).firstKeyDown = s.firstKeyDown := rfl
    cases hk : s.firstKeyDown with
    | none =>
      simp only [exec, execLdVxK, hkey, hk] at h ⊢
      cases h
      rfl
    | some k =>
      simp only [exec, execLdVxK, hkey, hk] at h ⊢
      cases h
      rfl
  | _ => cases h; rfl

/-- Two ports that are the same once they are sampled give the same step, unless it runs Cxkk. -/
theorem step_withRandPort_congr {p q : RandPort} (hpq : p.sampled = q.sampled) (hs : s.status = .running)
    (hi : ∀ x kk, ¬ s.Fetches (.rnd x kk)) : step (s.withRandPort p) = step (s.withRandPort q) := by
  cases hc : faultCause s with
  | some c =>
    rw [step_of_faultCause_eq_some (s := s.withRandPort p) hs ((faultCause_withRandPort p).trans hc),
      step_of_faultCause_eq_some (s := s.withRandPort q) hs ((faultCause_withRandPort q).trans hc)]
    exact congrArg (fun r => Host.Outcome.next ((s.takeFault c.1 c.2.1 c.2.2).withRandPort r)) hpq
  | none =>
    obtain ⟨i, u, hf, hcause, hu, hframe, -⟩ := step_of_faultCause_eq_none hs hc
    have hrnd : ∀ x kk, i ≠ .rnd x kk := by
      rintro x kk rfl
      exact hi x kk hf
    have hrun : u.status = .running := hframe.status_eq.trans hs
    rw [step_eq_tick_of_fetches (s := s.withRandPort p) hs hf (exec_withRandPort p hrnd hu hcause) hrun,
      step_eq_tick_of_fetches (s := s.withRandPort q) hs hf (exec_withRandPort q hrnd hu hcause) hrun]
    exact congrArg (fun r => Host.Outcome.next (u.tick.withRandPort r)) hpq

end Rand

/-- Settles O32: two bytes named on the port leave the same port once one of them is sampled. -/
theorem randMattersOnlyToRnd : Obligations.RandMattersOnlyToRnd := by
  intro s rand rand' h
  cases hs : s.status with
  | faulted => rw [stepWithRand_of_faulted rand hs, stepWithRand_of_faulted rand' hs]
  | running =>
    rw [stepWithRand_of_running rand hs, stepWithRand_of_running rand' hs]
    exact step_withRandPort_congr (p := ⟨rand :: s.randPort.given, s.randPort.drawn⟩) rfl hs (h hs)

/-! ### Runs -/

section Runs

variable {s t : State} {m n : Nat}

theorem run_succ (h : step s = .next t) : Host.Core.run core (n + 1) s = Host.Core.run core n t := by
  have hstep : core.step s = .next t := h
  simp only [Host.Core.run, hstep]

theorem exists_run_eq_next (n : Nat) (s : State) : ∃ t, Host.Core.run core n s = .next t := by
  induction n generalizing s with
  | zero => exact ⟨s, rfl⟩
  | succ n ih =>
    obtain ⟨t, ht⟩ := exists_step_eq_next s
    rw [run_succ ht]
    exact ih t

/-- A run of `m + n` steps is `m` steps and then `n`. -/
theorem run_add (h : Host.Core.run core m s = .next t) :
    Host.Core.run core (m + n) s = Host.Core.run core n t := by
  induction m generalizing s with
  | zero => cases h; rw [Nat.zero_add]
  | succ m ih =>
    obtain ⟨u, hu⟩ := exists_step_eq_next s
    rw [run_succ hu] at h
    rw [Nat.succ_add, run_succ hu]
    exact ih h

/-- The last step of a run. -/
theorem run_succ_last (h : Host.Core.run core n s = .next t) : Host.Core.run core (n + 1) s = step t := by
  rw [run_add h]
  obtain ⟨u, hu⟩ := exists_step_eq_next t
  rw [run_succ hu, hu]
  rfl

end Runs

/-- Settles O49: had the machine been FAULTED after `m` steps, the steps that follow would have left it so. -/
theorem safeRunsAreSafeThroughout : Obligations.SafeRunsAreSafeThroughout := by
  rintro n m s ⟨t, ht, hrun⟩ hmn
  obtain ⟨u, hu⟩ := exists_run_eq_next m s
  refine ⟨u, hu, ?_⟩
  cases hst : u.status with
  | running => rfl
  | faulted =>
    obtain ⟨k, rfl⟩ := Nat.exists_eq_add_of_le hmn
    rw [run_add hu, (stepsOfFaultedMachineChangeNothing u hst).2 k] at ht
    cases ht
    exact hst.symm.trans hrun

/-! ### Steps in which only the timers move -/

/-- `s` with other timers, tone and `rand` port: what the end of a step may change. -/
def State.retimed (s : State) (dt st : Byte) (tone : Bool) (p : RandPort) : State :=
  { s with dt := dt, st := st, tone := tone, randPort := p }

/-- While an instruction changes nothing at all, whatever the timers are, every step only ticks (R85, R87, R88). -/
theorem exists_run_of_exec_idle {i : Instr} (n : Nat) {s : State} (hs : s.status = .running) (hi : s.Fetches i)
    (hidle : ∀ dt st tone p, exec i (s.retimed dt st tone p) = .next (s.retimed dt st tone p)) :
    ∃ t, Host.Core.run core n s = .next t ∧ t.dt.toNat = s.dt.toNat - n ∧ t.st.toNat = s.st.toNat - n ∧
      t = s.retimed t.dt t.st t.tone t.randPort ∧ (0 < n → (t.tone = true ↔ s.st.toNat = n)) := by
  induction n generalizing s with
  | zero => exact ⟨s, rfl, rfl, rfl, rfl, nofun⟩
  | succ n ih =>
    have hexec : exec i s = .next s := hidle s.dt s.st s.tone s.randPort
    have hstep := step_eq_tick_of_fetches hs hi hexec hs
    obtain ⟨t, hrun, hdt, hst, hframe, htone⟩ :=
      ih (s := { s.tick with randPort := s.randPort.sampled }) hs hi hidle
    refine ⟨t, (run_succ hstep).trans hrun, ?_, ?_, hframe, fun _ => ?_⟩
    · rw [hdt]
      simp only [State.tick_dt, toNat_countDown]
      omega
    · rw [hst]
      simp only [State.tick_st, toNat_countDown]
      omega
    · cases n with
      | zero =>
        cases hrun
        exact State.tick_tone_iff
      | succ n =>
        rw [htone (Nat.succ_pos n)]
        simp only [State.tick_st, toNat_countDown]
        omega

theorem State.key_eq_keyDown (s : State) (k : Fin 16) : s.key[k] = s.keyDown (BitVec.ofNat 4 k.val) := by
  simp [State.keyDown]

theorem State.keyDown_eq_key (s : State) (k : Nibble) : s.keyDown k = s.key[(⟨k.toNat, k.isLt⟩ : Fin 16)] := rfl

theorem execLdVxK_of_no_key {x : Nibble} {s : State} (h : ∀ k : Fin 16, s.key[k] = false) :
    execLdVxK x s = .next s := by
  have hnone : s.firstKeyDown = none := State.firstKeyDown_eq_none.2 fun k => (s.keyDown_eq_key k).trans (h _)
  simp only [execLdVxK, hnone]

/-- Settles O45: with no key down Fx0A changes nothing, whatever the timers are. -/
theorem waitingForAKeyOnlyTicks : Obligations.WaitingForAKeyOnlyTicks := by
  intro n s x hs hi hkey
  obtain ⟨t, hrun, hdt, hst, hframe, -⟩ :=
    exists_run_of_exec_idle n hs hi fun dt st tone p => execLdVxK_of_no_key (s := s.retimed dt st tone p) hkey
  exact ⟨t, hrun, hdt, hst, hframe⟩

/-- A jump to its own address changes nothing (R88, R102). -/
theorem execJp_of_eq_pc {nnn : Addr12} {s : State} (h : nnn.toNat = s.pc.toNat) : execJp nnn s = .next s := by
  have hpc : addrOperand nnn = s.pc := BitVec.eq_of_toNat_eq ((toNat_addrOperand nnn).trans h)
  rw [execJp, hpc]
  rfl

/-- At a self-jump every step only ticks, and the machine stays there (R88). -/
theorem exists_run_of_atSelfJump (n : Nat) {s : State} (h : s.AtSelfJump) :
    ∃ t, Host.Core.run core n s = .next t ∧ t.dt.toNat = s.dt.toNat - n ∧ t.st.toNat = s.st.toNat - n ∧
      t = s.retimed t.dt t.st t.tone t.randPort ∧ (0 < n → (t.tone = true ↔ s.st.toNat = n)) := by
  obtain ⟨hs, nnn, hi, heq⟩ := h
  exact exists_run_of_exec_idle n hs hi fun dt st tone p => execJp_of_eq_pc (s := s.retimed dt st tone p) heq

/-- Settles O47: the jump writes the `pc` that is there already, whatever the timers are. -/
theorem selfJumpOnlyCountsTimersDown : Obligations.SelfJumpOnlyCountsTimersDown := by
  intro n s h
  obtain ⟨t, hrun, hdt, hst, hframe, -⟩ := exists_run_of_atSelfJump n h
  exact ⟨t, hrun, hdt, hst, hframe⟩

/-- Settles O48: timers that are 0 stay 0, so the tick finds no `ST = 1` and the self-jump is where it was. -/
theorem finalStatesStayFinal : Obligations.FinalStatesStayFinal := by
  rintro n s ⟨hjump, hdt0, hst0⟩
  obtain ⟨t, hrun, hdt, hst, hframe, htone⟩ := exists_run_of_atSelfJump n hjump
  have hdt' : t.dt = 0 := BitVec.eq_of_toNat_eq (by simp [hdt, hdt0])
  have hst' : t.st = 0 := BitVec.eq_of_toNat_eq (by simp [hst, hst0])
  have heq : t = { s with tone := t.tone, randPort := t.randPort } := by
    rw [hframe]
    simp only [State.retimed, hdt', hst', hdt0, hst0]
    rfl
  refine ⟨t, hrun, ⟨?_, hdt', hst'⟩, heq, fun hn => ?_⟩
  · rw [heq]
    exact hjump
  · rw [← Bool.not_eq_true, htone hn, hst0]
    simp
    omega

/-! ### The tone -/

/-- Settles O12: a no-op and a fault entry leave `TONE` 0, and the tick sets it to whether it finds `ST = 1`. -/
theorem toneIsOneOnlyAfterTheFinalTick : Obligations.ToneIsOneOnlyAfterTheFinalTick := by
  refine ⟨rfl, fun s t hinv h => ?_⟩
  cases hs : s.status with
  | faulted =>
    obtain ⟨-, -, -, -, -, hflt⟩ := hinv
    cases (step_of_faulted hs).symm.trans h
    simp [(hflt hs).2]
  | running =>
    cases hc : faultCause s with
    | some c =>
      cases (step_of_faultCause_eq_some hs hc).symm.trans h
      simp
    | none =>
      obtain ⟨i, u, hi, -, hu, hf, h'⟩ := step_of_faultCause_eq_none hs hc
      cases h'.symm.trans h
      have huniq : (∃ j w, s.Fetches j ∧ exec j s = .next w ∧ w.st = 1) ↔ u.st = 1 := by
        constructor
        · rintro ⟨j, w, hj, hw, hst⟩
          obtain rfl := hi.unique hj
          cases hu.symm.trans hw
          exact hst
        · exact fun hst => ⟨i, u, hi, hu, hst⟩
      rw [huniq]
      simp [hf.status_eq, hs]

/-- A step that does not fault and does not run Fx18 counts `ST` down, and its tone tells of `ST = 1` (R85). -/
theorem st_of_step_running {s t : State} (hs : s.status = .running) (hi : ∀ y, ¬ s.Fetches (.ldStVx y))
    (h : step s = .next t) (ht : t.status = .running) :
    t.st.toNat = s.st.toNat - 1 ∧ (t.tone = true ↔ s.st.toNat = 1) := by
  obtain ⟨i, u, hf, hu, hrun, rfl⟩ := exists_exec_tick_of_step_running hs h ht
  have hst : u.st = s.st := by
    by_contra hne
    obtain ⟨-, -, -, -, -, hwr, -⟩ := eachStateIsWrittenOnlyByItsInstructions i s u hu
    obtain ⟨y, rfl⟩ := hwr hne
    exact hi y hf
  rw [← hst]
  exact ⟨toNat_countDown u.st, State.tick_tone_iff⟩

/-- Settles O11: by induction on the number of steps, `ST` is `v - (k + 1)` after step `k`, and step `k` raises `TONE`
exactly when it found `ST = 1`. -/
theorem soundTimerRaisesToneExactlyOnce : Obligations.SoundTimerRaisesToneExactlyOnce := by
  intro s x N hs hi hv hsafe
  have key : ∀ k, k ≤ N → ∃ t, Host.Core.run core (k + 1) s = .next t ∧ (t.status = .running →
      t.st.toNat = (s.readV x).toNat - (k + 1) ∧ (t.tone = true ↔ (s.readV x).toNat = k + 1)) := by
    intro k
    induction k with
    | zero =>
      intro _
      refine ⟨_, run_succ (step_eq_tick_of_fetches hs hi rfl hs), fun _ => ?_⟩
      exact ⟨toNat_countDown (s.readV x), State.tick_tone_iff⟩
    | succ k ih =>
      intro hk
      obtain ⟨u, hu, hinv⟩ := ih (by omega)
      obtain ⟨hrun, hnost⟩ := hsafe (k + 1) u (by omega) hk hu
      obtain ⟨hst, -⟩ := hinv hrun
      obtain ⟨t, ht⟩ := exists_step_eq_next u
      refine ⟨t, (run_succ_last hu).trans ht, fun htr => ?_⟩
      obtain ⟨hst', htone⟩ := st_of_step_running hrun hnost ht htr
      rw [hst', htone, hst]
      omega
  intro k hk
  obtain ⟨t, ht, hinv⟩ := key k hk
  refine ⟨t, ht, fun hrun => ?_⟩
  rw [(hinv hrun).2]
  omega

end Sys2Proof.Machine

/-! Control flow that can fault (41_control_flow.md R101, R103, R108), and CALL and RET together. -/

namespace Sys2Proof.Machine

open Sys2Proof.Claims

/-- A meaning that raises its fault is the fault entry, with the instruction's word. -/
theorem raisesFault_of_exec_raise {i : Instr} {s : State} {kind : FaultKind} {op : Word} {info : Nat}
    (h : exec i s = s.raise kind i info) (hop : encode i = op) : RaisesFault i s kind op info := by
  subst hop
  exact h

/-- From 4095 up the fetch of a RUNNING machine faults (R45, R207). -/
theorem faultCause_of_pc_ge {s : State} (h : s.pc.toNat ≥ 4095) :
    faultCause s = some (.outOfBounds, 0, max s.pc.toNat 4096) := if_pos h

/-- Settles O19: the sum fits 16 bits, so the next fetch sees it unreduced and faults from 4095 up. -/
theorem jumpV0AddsTheOffset : Obligations.JumpV0AddsTheOffset := by
  intro s nnn target
  have hpc : (addrOperand nnn + byteAsWord (s.readV reg0)).toNat = target := toNat_addrOperand_add_byteAsWord nnn _
  refine ⟨formatNnn_or 0xB nnn, ⟨_, rfl, hpc, rfl⟩, fun hs hi hge => ?_⟩
  have hcause := faultCause_of_pc_ge (s := s.setPc (addrOperand nnn + byteAsWord (s.readV reg0))) (hpc ▸ hge)
  refine ⟨_, _, step_eq_tick_of_fetches hs hi rfl hs, hs, hpc, step_of_faultCause_eq_some hs hcause, rfl, ?_⟩
  rw [← hpc]
  rfl

/-- Settles O20: below 16 the push writes the slot at SP alone, and at 16 there is no push. -/
theorem callPushesItsOwnAddress : Obligations.CallPushesItsOwnAddress := by
  intro s nnn
  refine ⟨formatNnn_or 2 nnn, fun hsp => ?_, fun hsp => ?_⟩
  · refine ⟨_, execCall_of_sp_lt_16 hsp, toNat_addrOperand nnn, rfl, fun k => ?_, rfl⟩
    simp only [State.setPc_stack, Fin.getElem_fin, Vector.getElem_set, eq_comm]
  · exact raisesFault_of_exec_raise (execCall_of_sp_eq_16 hsp) (formatNnn_or 2 nnn)

/-- Settles O21: with an address stacked the pop answers the entry below SP, and with none there is no pop. -/
theorem returnPopsAndContinuesAfterTheCall : Obligations.ReturnPopsAndContinuesAfterTheCall := by
  refine ⟨rfl, fun s => ⟨fun k hk => ?_, fun hsp => ?_⟩⟩
  · refine ⟨_, execRet_of_sp_pos (by omega), ?_, ?_, rfl⟩
    · simp [hk]
    · simp [hk]
  · exact raisesFault_of_exec_raise (execRet_of_sp_eq_zero hsp) rfl

/-- Settles O22: the RET pops the entry that the CALL has pushed, its own address, which the fetch bounds. -/
theorem callThenReturnContinuesAfterTheCallSite : Obligations.CallThenReturnContinuesAfterTheCallSite := by
  intro s nnn hs hi hsp hnnn hret
  obtain ⟨t, hcall, htpc, htsp, htstack, htf⟩ := (callPushesItsOwnAddress s nnn).2.1 hsp
  have htrun : t.status = .running := (congrArg State.status htf :).trans hs
  have hmem : t.mem = s.mem := (congrArg State.mem htf :)
  have hstep := step_eq_tick_of_fetches hs hi hcall htrun
  have hfetch : State.Fetches { t.tick with randPort := t.randPort.sampled } .ret := by
    unfold State.Fetches State.wordAtPc
    simp only [State.tick_pc, State.tick_mem, htpc, hmem]
    exact ⟨hnnn, hret⟩
  obtain ⟨u, hexec, hupc, husp, huf⟩ := (returnPopsAndContinuesAfterTheCall.2
    { t.tick with randPort := t.randPort.sampled }).1 ⟨s.sp.val, hsp⟩ htsp
  have hurun : u.status = .running := (congrArg State.status huf :).trans htrun
  have htop : t.stack[s.sp.val] = s.pc := (htstack ⟨s.sp.val, hsp⟩).trans (if_pos rfl)
  refine ⟨_, _, hstep, htpc, step_eq_tick_of_fetches htrun hfetch hexec hurun, hurun, ?_, Fin.ext husp,
    (congrArg State.v huf :).trans (congrArg State.v htf :), (congrArg State.mem huf :).trans hmem,
    (congrArg State.index huf :).trans (congrArg State.index htf :),
    (congrArg State.fb huf :).trans (congrArg State.fb htf :)⟩
  have hle := hi.1
  simp only [State.tick_pc, hupc, State.tick_stack, Fin.getElem_fin, htop, BitVec.toNat_add]
  simp
  omega

end Sys2Proof.Machine

/-! Arithmetic, shifts and the random byte (42_load_alu.md R126 to R133), with register 15 as the spec decides (D10). -/

namespace Sys2Proof.Machine

open Sys2Proof.Claims

/-- A meaning that writes two registers in turn and advances: the second write wins where they meet. -/
theorem writesRegisters_of_exec_writeV_writeV {i : Instr} {s : State} {x y : Nibble} {b c : Byte}
    {after : Nibble → Byte} (h : exec i s = .next ((s.writeV x b).writeV y c).advance)
    (hr : ∀ r, (if r = y then c else if r = x then b else s.readV r) = after r) : WritesRegisters i s after := by
  refine ⟨_, h, rfl, fun r => ?_, rfl⟩
  rw [← hr r, State.readV_setPc, State.readV_writeV, State.readV_writeV]

theorem flagByte_decide (P : Prop) [Decidable P] : flagByte (decide P) = if P then 1 else 0 := by
  simp [flagByte]

/-- Byte subtraction is subtraction of the numbers modulo 256 (R127, R129). -/
theorem byte_sub_eq_ofNat_mod (a b : Byte) : a - b = BitVec.ofNat 8 ((a.toNat + 256 - b.toNat) % 256) := by
  have := a.isLt
  have := b.isLt
  apply BitVec.eq_of_toNat_eq
  rw [BitVec.toNat_sub]
  simp
  omega

/-- The right shift by one halves the number (R128). -/
theorem byte_shiftRight_one (a : Byte) : a >>> 1 = BitVec.ofNat 8 (a.toNat / 2) := by
  apply BitVec.eq_of_toNat_eq
  simp [Nat.shiftRight_eq_div_pow]
  omega

/-- The left shift by one doubles the number modulo 256 (R130). -/
theorem byte_shiftLeft_one (a : Byte) : a <<< 1 = BitVec.ofNat 8 (a.toNat * 2 % 256) := by
  apply BitVec.eq_of_toNat_eq
  simp [Nat.shiftLeft_eq]

/-- The bit that a right shift puts out, as a number (R128). -/
theorem lowBitFlag_eq (a : Byte) : lowBitFlag a = BitVec.ofNat 8 (a.toNat % 2) := by
  revert a; decide

/-- The bit that a left shift puts out, as a number (R130). -/
theorem highBitFlag_eq (a : Byte) : highBitFlag a = BitVec.ofNat 8 (a.toNat / 128) := by
  revert a; decide

/-- Settles O27: the carry is written last, so it stays where `x` is 15. -/
theorem addWritesResultThenCarry : Obligations.AddWritesResultThenCarry := by
  intro s x y
  refine ⟨formatXyn_eq_opcode_or 8 x y 4, writesRegisters_of_exec_writeV_writeV rfl fun r => ?_⟩
  rw [carryFlag, flagByte_decide, byte_add_eq_ofNat_mod]

/-- Settles O28: the flag is written first, so the difference reads it where an operand is register 15. -/
theorem subtractWritesFlagThenDifference : Obligations.SubtractWritesFlagThenDifference := by
  intro s x y
  refine ⟨⟨formatXyn_eq_opcode_or 8 x y 5, writesRegisters_of_exec_writeV_writeV rfl fun r => ?_⟩,
    ⟨formatXyn_eq_opcode_or 8 x y 7, writesRegisters_of_exec_writeV_writeV rfl fun r => ?_⟩⟩
  · rw [State.readV_writeV, State.readV_writeV, greaterFlag, flagByte_decide, byte_sub_eq_ofNat_mod]
  · rw [State.readV_writeV, State.readV_writeV, greaterFlag, flagByte_decide, byte_sub_eq_ofNat_mod]

/-- Settles O29: the bit shifted out is written first, so the shift reads it where `x` is 15. -/
theorem shiftsWriteFlagThenResult : Obligations.ShiftsWriteFlagThenResult := by
  intro s x y
  refine ⟨⟨formatXyn_eq_opcode_or 8 x y 6, writesRegisters_of_exec_writeV_writeV rfl fun r => ?_⟩,
    ⟨formatXyn_eq_opcode_or 8 x y 0xE, writesRegisters_of_exec_writeV_writeV rfl fun r => ?_⟩⟩
  · rw [State.readV_writeV, byte_shiftRight_one, lowBitFlag_eq]
  · rw [State.readV_writeV, byte_shiftLeft_one, highBitFlag_eq]

/-- The carry of a sum of two bytes is its quotient by 256 (R126, R133). -/
theorem toNat_carry (a b : Byte) :
    (if a.toNat + b.toNat > 255 then 1 else 0 : Byte).toNat = (a.toNat + b.toNat) / 256 := by
  have := a.isLt
  have := b.isLt
  split <;> simp <;> omega

theorem toNat_flag (P : Prop) [Decidable P] : (if P then 1 else 0 : Byte).toNat = if P then 1 else 0 := by
  split <;> rfl

theorem toNat_ofNat_mod_256 (n : Nat) : (BitVec.ofNat 8 (n % 256)).toNat = n % 256 := by simp

theorem toNat_ofNat_half (b : Byte) : (BitVec.ofNat 8 (b.toNat / 2)).toNat = b.toNat / 2 := by
  have := b.isLt
  rw [BitVec.toNat_ofNat]
  omega

theorem toNat_ofNat_bit (b : Byte) : (BitVec.ofNat 8 (b.toNat % 2)).toNat = b.toNat % 2 := by
  rw [BitVec.toNat_ofNat]
  omega

theorem toNat_ofNat_top_bit (b : Byte) : (BitVec.ofNat 8 (b.toNat / 128)).toNat = b.toNat / 128 := by
  have := b.isLt
  rw [BitVec.toNat_ofNat]
  omega

/-- One register after an instruction, as a number. -/
theorem exists_toNat_readV {i : Instr} {s : State} {after : Nibble → Byte} (h : WritesRegisters i s after)
    (r : Nibble) : ∃ t, exec i s = .next t ∧ (t.readV r).toNat = (after r).toNat := by
  obtain ⟨t, ht, -, hr, -⟩ := h
  exact ⟨t, ht, congrArg BitVec.toNat (hr r)⟩

/-- Two registers after an instruction, as numbers. -/
theorem exists_toNat_readV_two {i : Instr} {s : State} {after : Nibble → Byte} (h : WritesRegisters i s after)
    (r q : Nibble) : ∃ t, exec i s = .next t ∧ (t.readV r).toNat = (after r).toNat ∧
      (t.readV q).toNat = (after q).toNat := by
  obtain ⟨t, ht, -, hr, -⟩ := h
  exact ⟨t, ht, congrArg BitVec.toNat (hr r), congrArg BitVec.toNat (hr q)⟩

/-- Settles O30: the rules of 8xy4 to 8xyE, read at the registers of each row. -/
theorem register15CornerCases : Obligations.Register15CornerCases := by
  intro s F
  have hadd := fun x y => (addWritesResultThenCarry s x y).2
  have hsub := fun x y => (subtractWritesFlagThenDifference s x y).1.2
  have hsubn := fun x y => (subtractWritesFlagThenDifference s x y).2.2
  have hshr := fun x y => (shiftsWriteFlagThenResult s x y).1.2
  have hshl := fun x y => (shiftsWriteFlagThenResult s x y).2.2
  refine ⟨?_, ?_, ?_, fun y => ⟨?_, ?_⟩, fun z hz => ?_⟩
  · simpa only [↓reduceIte, toNat_carry] using exists_toNat_readV (hadd 15 15) 15
  · simpa only [↓reduceIte, Nat.add_sub_cancel_left, Nat.mod_self, BitVec.toNat_ofNat, Nat.zero_mod]
      using exists_toNat_readV (hsub 15 15) 15
  · simpa only [↓reduceIte, Nat.add_sub_cancel_left, Nat.mod_self, BitVec.toNat_ofNat, Nat.zero_mod]
      using exists_toNat_readV (hsubn 15 15) 15
  · have h := exists_toNat_readV (hshr 15 y) 15
    simp only [↓reduceIte, toNat_ofNat_bit] at h
    rwa [show F % 2 / 2 = 0 by omega] at h
  · have h := exists_toNat_readV (hshl 15 y) 15
    simp only [↓reduceIte, toNat_ofNat_mod_256, toNat_ofNat_top_bit] at h
    have hF : F < 256 := (s.readV 15).isLt
    rwa [show F / 128 * 2 % 256 = 2 * (F / 128) by omega] at h
  intro Z
  have hz' : (15 : Nibble) ≠ z := hz.symm
  refine ⟨?_, ?_, ?_, ?_, ?_, ?_, ?_, ?_⟩
  · simpa only [↓reduceIte, toNat_carry] using exists_toNat_readV (hadd 15 z) 15
  · simpa only [↓reduceIte, hz, toNat_carry, toNat_ofNat_mod_256] using exists_toNat_readV_two (hadd z 15) z 15
  · simpa only [↓reduceIte, hz, toNat_flag, toNat_ofNat_mod_256] using exists_toNat_readV (hsub 15 z) 15
  · simpa only [↓reduceIte, hz, hz', toNat_flag, toNat_ofNat_mod_256] using exists_toNat_readV_two (hsub z 15) z 15
  · simpa only [↓reduceIte, hz, toNat_flag, toNat_ofNat_mod_256] using exists_toNat_readV (hsubn 15 z) 15
  · simpa only [↓reduceIte, hz, hz', toNat_flag, toNat_ofNat_mod_256] using exists_toNat_readV_two (hsubn z 15) z 15
  · simpa only [↓reduceIte, hz, hz', toNat_ofNat_half, toNat_ofNat_bit] using exists_toNat_readV_two (hshr z 15) z 15
  · simpa only [↓reduceIte, hz, hz', toNat_ofNat_mod_256, toNat_ofNat_top_bit]
      using exists_toNat_readV_two (hshl z 15) z 15

/-- Settles O31: Cxkk is one `writeV` of the mask of the port's byte, the free one or the one just named. -/
theorem randomByteIsMasked : Obligations.RandomByteIsMasked := by
  intro s x kk rand
  exact ⟨formatXkk_or 0xC x kk, writesOneRegister_of_exec_writeV rfl,
    writesOneRegister_of_exec_writeV (s := s.withRand rand) rfl⟩

end Sys2Proof.Machine

/-! The index register (43_index_memory.md R140 to R142), the key tests and the wait for a key (45_input_timers.md R170
to R172). -/

namespace Sys2Proof.Machine

open Sys2Proof.Claims

/-- Fx1E adds modulo 65536 (R141). -/
theorem toNat_add_byteAsWord (w : Word) (b : Byte) : (w + byteAsWord b).toNat = (w.toNat + b.toNat) % 65536 := by
  have := b.isLt
  rw [BitVec.toNat_add, byteAsWord, BitVec.toNat_setWidth, Nat.mod_eq_of_lt (by omega : b.toNat < 2 ^ 16)]

/-- The glyph address does not wrap (R142). -/
theorem toNat_glyphAddr (b : Byte) : (glyphAddr b).toNat = b.toNat * 5 := by
  have := b.isLt
  simp [glyphAddr, byteAsWord]
  omega

/-- Settles O33: each of the three is one write of `I`, whose number does not wrap but for Fx1E. -/
theorem indexWrites : Obligations.IndexWrites := by
  intro s x nnn
  exact ⟨⟨formatNnn_or 0xA nnn, _, rfl, toNat_addrOperand nnn, rfl⟩,
    ⟨formatX_eq_opcode_or 0xF x 0x1E, _, rfl, toNat_add_byteAsWord s.index (s.readV x), rfl⟩,
    ⟨formatX_eq_opcode_or 0xF x 0x29, _, rfl, toNat_glyphAddr (s.readV x), rfl⟩⟩

/-- Settles O43: a register that is a key index names that key; above 15 the index check raises the fault. -/
theorem keySkipsTestTheNamedKey : Obligations.KeySkipsTestTheNamedKey := by
  intro s x
  have hskp : encode (.skp x) = 0xE09E ||| xBits x := formatX_eq_opcode_or 0xE x 0x9E
  have hsknp : encode (.sknp x) = 0xE0A1 ||| xBits x := formatX_eq_opcode_or 0xE x 0xA1
  refine ⟨hskp, hsknp, fun k hk => ?_, fun hgt => ?_⟩
  · have hle : (s.readV x).toNat ≤ 15 := by omega
    have hkey : s.keyDown (BitVec.ofNat 4 (s.readV x).toNat) = s.key[k] := by rw [hk, ← State.key_eq_keyDown]
    constructor
    · exact skipsWhen_of_exec_skipIf (execSkp_of_le hle) (by rw [hkey])
    · exact skipsWhen_of_exec_skipIf (execSknp_of_le hle) (by rw [hkey, Bool.not_eq_true'])
  · exact ⟨raisesFault_of_exec_raise (execSkp_of_gt hgt) hskp,
      raisesFault_of_exec_raise (execSknp_of_gt hgt) hsknp⟩

/-- Settles O44: the ascending scan finds the least key that is down, and nothing when none is. -/
theorem waitForKeyTakesTheLeastPressedKey : Obligations.WaitForKeyTakesTheLeastPressedKey := by
  intro s x
  refine ⟨formatX_eq_opcode_or 0xF x 0x0A, fun k hk hleast => ?_, execLdVxK_of_no_key⟩
  have hscan : s.firstKeyDown = some k.val := by
    refine State.firstKeyDown_eq_some.2 ⟨k.isLt, (s.key_eq_keyDown k).symm.trans hk, fun j hj => ?_⟩
    exact (s.key_eq_keyDown ⟨j, by omega⟩).symm.trans (hleast ⟨j, by omega⟩ hj)
  apply writesOneRegister_of_exec_writeV
  simp only [exec, execLdVxK, hscan]

end Sys2Proof.Machine

/-! The store (20_memory.md): checked byte accesses, the canonical form, and what Fx33, Fx55, Fx65 and `load_program`
leave in it (43_index_memory.md R143 to R145, 20_memory.md R51, R54). -/

namespace Sys2Proof.Machine

open Sys2Proof.Claims

/-! ### The unit by itself -/

/-- Everything the read of one byte can do (R43). -/
theorem loadByte_spec (m : Memory) (a : Nat) : loadByte m a = if a < 4096 then .ok (m.get a) else .error a := by
  unfold loadByte
  split
  · next bad h =>
    obtain ⟨h, rfl⟩ := firstOutside_eq_some.1 h
    rw [if_neg (by omega), Nat.max_eq_left (by omega)]
  · next h =>
    have := firstOutside_eq_none.1 h
    rw [if_pos (by omega)]

/-- Everything the write of one byte can do (R44). -/
theorem storeByte_spec (m : Memory) (a : Nat) (v : Byte) :
    storeByte m a v = if a < 4096 then .ok (m.put a v) else .error a := by
  rw [storeByte, storeBytes_spec]
  by_cases h : a < 4096
  · rw [if_pos h, if_pos (.inr (by simp; omega))]
    rfl
  · rw [if_neg h, if_neg (by simp; omega), Nat.max_eq_left (by omega)]

/-- Settles O38: both accesses make the one bounds check, and the write is a `put` inside the store. -/
theorem byteAccessIsCheckedAgainstTheStore : Obligations.ByteAccessIsCheckedAgainstTheStore := by
  intro m a v hm
  rw [loadByte_spec, storeByte_spec]
  refine ⟨fun h => ?_, fun h => ?_⟩
  · rw [if_pos h, if_pos h]
    exact ⟨rfl, m.put a v, rfl, Memory.wf_put hm h v, Memory.get_put hm.1 a v⟩
  · rw [if_neg (by omega), if_neg (by omega)]
    exact ⟨rfl, rfl⟩

section Canonical

variable {a b : Nat} {v w : Byte} {m m' : Memory}

theorem Memory.wf_tail (h : Memory.wf ((a, v) :: m)) : m.wf :=
  ⟨(List.pairwise_cons.1 h.1).2, fun c hc => h.2 c (List.mem_cons_of_mem _ hc)⟩

/-- The head of a canonical store differs from what its address reads as unlisted. -/
theorem Memory.head_ne_unlisted (h : Memory.wf ((a, v) :: m)) : v ≠ Memory.unlisted a := (h.2 _ List.mem_cons_self).2

/-- Up to the head's address the rest of a canonical store lists nothing. -/
theorem Memory.get_tail_of_le (h : Memory.wf ((a, v) :: m)) (hb : b ≤ a) : m.get b = Memory.unlisted b := by
  refine Memory.get_eq_unlisted fun c hc => ?_
  have hlt : a < c.1 := (List.pairwise_cons.1 h.1).1 c hc
  omega

theorem Memory.get_cons_self : Memory.get ((a, v) :: m) a = v := if_pos rfl

theorem Memory.get_cons_of_ne (h : b ≠ a) : Memory.get ((a, v) :: m) b = m.get b := if_neg h

/-- A canonical store does not read, below its head's address, what another one lists there. -/
theorem Memory.le_of_get_eq (h : Memory.wf ((a, v) :: m)) (h' : Memory.wf ((b, w) :: m'))
    (e : Memory.get ((a, v) :: m) a = Memory.get ((b, w) :: m') a) : b ≤ a := by
  by_contra hlt
  refine Memory.head_ne_unlisted h ?_
  rw [Memory.get_cons_self, Memory.get_cons_of_ne (by omega), Memory.get_tail_of_le h' (by omega)] at e
  exact e

end Canonical

/-- Settles O39: by induction on one store; the heads list the same address, since neither reads as unlisted what the
other lists, and there the same byte. -/
theorem equalReadsAreEqualStores : Obligations.EqualReadsAreEqualStores := by
  intro m
  induction m with
  | nil =>
    intro m' _ hm' heq
    cases m' with
    | nil => rfl
    | cons d m' => exact absurd (Memory.get_cons_self.symm.trans (heq d.1).symm) (Memory.head_ne_unlisted hm')
  | cons c m ih =>
    obtain ⟨a, v⟩ := c
    intro m' hm hm' heq
    cases m' with
    | nil => exact absurd (Memory.get_cons_self.symm.trans (heq a)) (Memory.head_ne_unlisted hm)
    | cons d m' =>
      obtain ⟨b, w⟩ := d
      obtain rfl : a = b :=
        Nat.le_antisymm (Memory.le_of_get_eq hm' hm (heq b).symm) (Memory.le_of_get_eq hm hm' (heq a))
      obtain rfl : v = w := by simpa only [Memory.get_cons_self] using heq a
      congr 1
      refine ih m' (Memory.wf_tail hm) (Memory.wf_tail hm') fun e => ?_
      by_cases hea : e = a
      · rw [Memory.get_tail_of_le hm hea.le, Memory.get_tail_of_le hm' hea.le]
      · simpa only [Memory.get_cons_of_ne hea] using heq e

/-! ### The instructions that move bytes -/

section Bytes

variable {s : State} {x : Nibble}

/-- The store after Fx33, byte by byte (R143). -/
theorem get_putMany_decimalDigits (hm : s.mem.wf) (b : Nat) :
    (s.mem.putMany s.index.toNat (decimalDigits (s.readV x))).get b = byteAfterDigits s x b := by
  rw [Memory.get_putMany hm.1]
  unfold byteAfterDigits
  by_cases h0 : b = s.index.toNat
  · simp [h0, decimalDigits]
  · by_cases h1 : b = s.index.toNat + 1
    · simp [h1, decimalDigits]
    · by_cases h2 : b = s.index.toNat + 2
      · simp [h2, decimalDigits]
      · rw [dif_neg (by rw [length_decimalDigits]; omega)]
        simp only [h0, h1, h2, ↓reduceIte]

/-- The store after Fx55, byte by byte (R144). -/
theorem get_putMany_firstRegs (hm : s.mem.wf) (b : Nat) :
    (s.mem.putMany s.index.toNat (s.firstRegs x)).get b = byteAfterStore s x b := by
  rw [Memory.get_putMany hm.1]
  unfold byteAfterStore
  by_cases h : s.index.toNat ≤ b ∧ b ≤ s.index.toNat + x.toNat
  · rw [dif_pos (by rw [State.length_firstRegs]; omega), if_pos h, State.getElem_firstRegs]
  · rw [dif_neg (by rw [State.length_firstRegs]; omega), if_neg h]

/-- A decimal digit of a byte is its own number. -/
theorem toNat_ofNat_digit {n : Nat} (h : n < 10) : (BitVec.ofNat 8 n).toNat = n := by
  rw [BitVec.toNat_ofNat]
  omega

end Bytes

/-- Settles O34: inside the store the three digits are written and no other byte; outside nothing is. -/
theorem decimalDigitsAreStored : Obligations.DecimalDigitsAreStored := by
  intro s x hm
  have henc : encode (.ldBVx x) = 0xF033 ||| xBits x := formatX_eq_opcode_or 0xF x 0x33
  refine ⟨henc, fun hin => ⟨_, execLdBVx_of_inside hin, ?_⟩, fun hout =>
    raisesFault_of_exec_raise (execLdBVx_of_outside hout) henc⟩
  have hv := (s.readV x).isLt
  simp only [State.setPc_mem, State.setMem_mem, get_putMany_decimalDigits hm]
  refine ⟨?_, ?_, ?_, fun a ha => ?_, rfl⟩
  · simp only [byteAfterDigits, ↓reduceIte]
    exact toNat_ofNat_digit (by omega)
  · simp only [byteAfterDigits, ↓reduceIte, Nat.add_eq_left, one_ne_zero]
    exact toNat_ofNat_digit (by omega)
  · simp [byteAfterDigits]
    omega
  · unfold byteAfterDigits
    rw [if_neg (by omega), if_neg (by omega), if_neg (by omega)]

/-- Settles O35: inside the store `V0` to `Vx` are written and no other byte; outside nothing is. -/
theorem registersAreStored : Obligations.RegistersAreStored := by
  intro s x hm
  have henc : encode (.ldMemVx x) = 0xF055 ||| xBits x := formatX_eq_opcode_or 0xF x 0x55
  refine ⟨henc, fun hin => ⟨_, execLdMemVx_of_inside hin, ?_⟩, fun hout =>
    raisesFault_of_exec_raise (execLdMemVx_of_outside hout) henc⟩
  simp only [State.setPc_mem, State.setMem_mem, get_putMany_firstRegs hm]
  refine ⟨fun r hr => ?_, fun a ha => ?_, rfl⟩
  · rw [byteAfterStore, if_pos (by omega), Nat.add_sub_cancel_left, BitVec.ofNat_toNat, BitVec.setWidth_eq]
  · rw [byteAfterStore, if_neg (by omega)]

/-- Settles O36: inside the store the bytes read go to `V0` and up and to no register above `Vx`. -/
theorem registersAreLoaded : Obligations.RegistersAreLoaded := by
  intro s x
  have henc : encode (.ldVxMem x) = 0xF065 ||| xBits x := formatX_eq_opcode_or 0xF x 0x65
  refine ⟨henc, fun hin => ⟨_, execLdVxMem_of_inside hin, by simp, fun r => readV_writeFrom_getMany _ _, ?_⟩,
    fun hout => raisesFault_of_exec_raise (execLdVxMem_of_outside hout) henc⟩
  rw [State.writeFrom_frame]
  rfl

/-- Settles O37: the fetch reads the two bytes as the store holds them afterwards. -/
theorem storedBytesAreFetched : Obligations.StoredBytesAreFetched := by
  intro s x hm
  refine ⟨fun hin => ⟨_, execLdBVx_of_inside hin, fun a ha => ?_⟩,
    fun hin => ⟨_, execLdMemVx_of_inside hin, fun a ha => ?_⟩⟩
  · rw [loadWord_spec, if_pos ha, State.setPc_mem, State.setMem_mem, get_putMany_decimalDigits hm,
      get_putMany_decimalDigits hm]
  · rw [loadWord_spec, if_pos ha, State.setPc_mem, State.setMem_mem, get_putMany_firstRegs hm,
      get_putMany_firstRegs hm]

/-- Settles O57: the length check decides, and the row of writes from 512 touches the program's bytes alone. -/
theorem loadProgramWritesOnlyTheProgram : Obligations.LoadProgramWritesOnlyTheProgram := by
  intro s bytes hm
  refine ⟨fun hlen => if_neg (mt wellFormedProgram_iff.1 (by omega)), fun hlen =>
    ⟨_, if_pos (wellFormedProgram_iff.2 hlen), fun k hk => ?_, fun a ha => ?_, rfl⟩⟩
  · simp only [State.setMem_mem, Config.progBase, Memory.get_putMany hm.1]
    rw [dif_pos (by omega)]
    simp only [Nat.add_sub_cancel_left]
  · simp only [State.setMem_mem, Config.progBase, Memory.get_putMany hm.1]
    rw [dif_neg (by omega)]

end Sys2Proof.Machine

/-! Drawing (44_display.md R162 to R164), once and twice. -/

namespace Sys2Proof.Machine

open Sys2Proof.Claims

section Drawing

variable {s t : State} {x y n : Nibble}

/-- Dxyn toggles exactly the pixels that the rule covers, and finds a collision where one of them was 1 (R162). -/
theorem drawing_toggles (s : State) (x y n : Nibble) :
    Drawing.Toggles (Covered s x y n) ⟨s.fb, false⟩ (s.drawing x y n) := by
  have hrows := drawRows_toggles (s.readV x).toNat (s.readV y).toNat 0 (s.mem.getMany s.indexAddr n.toNat)
    ⟨s.fb, false⟩ (by rw [Memory.length_getMany]; omega)
  refine hrows.congr fun p => ?_
  simp only [Memory.length_getMany, Memory.getElem_getMany, exists_prop, Nat.add_zero, pixelIndex]
  exact Iff.rfl

theorem pixel_drawing (p : Nat) (hp : p < 2048) :
    (Covered s x y n p → (s.drawing x y n).fb.pixel p = !s.fb.pixel p) ∧
    (¬ Covered s x y n p → (s.drawing x y n).fb.pixel p = s.fb.pixel p) :=
  (drawing_toggles s x y n).1 p hp

theorem collision_drawing :
    (s.drawing x y n).collision = true ↔ ∃ p, p < 2048 ∧ Covered s x y n p ∧ s.fb.pixel p = true := by
  simpa using (drawing_toggles s x y n).2

/-- A sprite covers the same pixels while the registers, `I` and the store that it is drawn from are the same. -/
theorem covered_congr (hx : t.readV x = s.readV x) (hy : t.readV y = s.readV y) (hi : t.index = s.index)
    (hm : t.mem = s.mem) (p : Nat) : Covered t x y n p ↔ Covered s x y n p := by
  unfold Covered
  rw [hx, hy, hi, hm]

end Drawing

/-- Settles O41: the drawing toggles the covered pixels, VF is written once with its collision, and out of range nothing
is drawn. -/
theorem drawTogglesTheCoveredPixels : Obligations.DrawTogglesTheCoveredPixels := by
  intro s x y n
  have henc : encode (.drw x y n) = 0xD000 ||| xBits x ||| yBits y ||| n.setWidth 16 := formatXyn_or 0xD x y n
  refine ⟨henc, fun hin => ⟨_, execDrw_of_inside (by omega), pixel_drawing, ?_, ?_, fun r hr => ?_, rfl⟩,
    fun hout => raisesFault_of_exec_raise (execDrw_of_outside hout.1 (by omega)) henc⟩
  · intro hcol
    have hc : (s.drawing x y n).collision = true := collision_drawing.2 hcol
    simp [hc, flagByte]
  · intro hnone
    have hc : (s.drawing x y n).collision = false := by
      rw [← Bool.not_eq_true, collision_drawing]
      rintro ⟨p, hp, hcov, hone⟩
      simp [hnone p hp hcov] at hone
    simp [hc, flagByte]
  · rw [State.readV_setPc, State.readV_writeV, if_neg hr]
    rfl

/-- Settles O42: with `x` and `y` other than VF the second draw covers the same pixels, so each is toggled twice. -/
theorem drawingTwiceRestoresTheFramebuffer : Obligations.DrawingTwiceRestoresTheFramebuffer := by
  intro s x y n hx hy hin
  obtain ⟨t, ht, htpix, -, htvf, htreg, htf⟩ := (drawTogglesTheCoveredPixels s x y n).2.1 hin
  have hidx : t.index = s.index := (congrArg State.index htf :)
  have hcov : ∀ p, Covered t x y n p ↔ Covered s x y n p :=
    covered_congr (htreg x hx) (htreg y hy) hidx (congrArg State.mem htf :)
  obtain ⟨u, hu, hupix, huvf, -⟩ := (drawTogglesTheCoveredPixels t x y n).2.1 (hidx ▸ hin)
  refine ⟨t, u, ht, hu, Framebuffer.ext fun p hp => ?_, htvf, ?_⟩
  · by_cases hc : Covered s x y n p
    · rw [(hupix p hp).1 ((hcov p).2 hc), (htpix p hp).1 hc, Bool.not_not]
    · rw [(hupix p hp).2 (mt (hcov p).1 hc), (htpix p hp).2 hc]
  · rintro ⟨p, hp, hc, hzero⟩
    exact huvf ⟨p, hp, (hcov p).2 hc, by rw [(htpix p hp).1 hc, hzero, Bool.not_false]⟩

end Sys2Proof.Machine

/-! Reset and the ports of the host (70_reset_and_hazards.md R230, R232, 10_state.md section 9). -/

namespace Sys2Proof.Machine

open Sys2Proof.Claims

/-- Settles O55: a reset answers the reset state, whose store lists nothing, with the host's `rand` port. -/
theorem resetPutsTheCoreInItsResetState : Obligations.ResetPutsTheCoreInItsResetState := by
  intro s
  have hfont : ∀ (a : Nat) (h : a < 80), Memory.unlisted a = Config.fontTable[a] := fun a h => dif_pos h
  have hzero : ∀ a, 80 ≤ a → Memory.unlisted a = 0 := fun a h => dif_neg (by omega)
  have hreg : ∀ r, State.reset.readV r = 0 := by decide
  have hstack : ∀ k : Fin 16, State.reset.stack[k] = 0 := by decide
  have hkey : ∀ k : Fin 16, State.reset.key[k] = false := by decide
  have hpixel : ∀ p, State.reset.fb.pixel p = false := Framebuffer.pixel_clear
  exact ⟨s.resetPort, rfl, hfont, fun a h _ => hzero a h, rfl, hreg, rfl, rfl, hstack, rfl, rfl, hkey,
    fun p _ => hpixel p, rfl, rfl, rfl⟩

/-- Settles O56: the word at 512 is two unlisted bytes above the font, and `0x0000` is ill formed. -/
theorem firstStepAfterResetFaults : Obligations.FirstStepAfterResetFaults := by
  obtain ⟨hill, hstep⟩ := illegalWordRaisesUnimplementedInstruction
  have hword : State.reset.wordAtPc = 0x0000 := by decide
  have h := hstep State.reset rfl (by decide) (hword ▸ hill)
  rw [hword] at h
  exact ⟨hword, _, h, rfl, rfl⟩

/-- Settles O58: the port is one write of the key array. -/
theorem setKeySetsOneKey : Obligations.SetKeySetsOneKey :=
  fun s index pressed => ⟨s.setKey index pressed, rfl, fun k => State.keyDown_setKey s index k pressed, rfl⟩

/-- Settles O59: entry `cy * 64 + cx` of the port is the pixel of that number, whose row and column the division by 64
gives back. -/
theorem framebufferPortShowsEveryPixel : Obligations.FramebufferPortShowsEveryPixel := by
  intro s
  refine ⟨by simp [State.framebufferPort], fun cx cy => ?_⟩
  have hp : cy.val * 64 + cx.val < 2048 := by omega
  have hrow : (cy.val * 64 + cx.val) / 64 = cy.val := by omega
  have hcol : (cy.val * 64 + cx.val) % 64 = cx.val := by omega
  simp [State.framebufferPort, Framebuffer.pixel, hp, hrow, hcol]

/-- Settles O60: the ports show the named values by their codes, and under the invariant the record is empty exactly
while RUNNING. -/
theorem portsShowStatusRecordAndTone : Obligations.PortsShowStatusRecordAndTone := by
  rintro s ⟨-, -, -, hrec, hkind, -⟩
  refine ⟨?_, ?_, ⟨s.faultRec.kind.code.toNat, faultCode_code _, ?_⟩, fun hs => ?_, fun hs => ?_⟩
  · cases hs : s.status <;> simp [State.statusPort, hs]
  · cases ht : s.tone <;> simp [State.tonePort, ht]
  · rw [BitVec.ofNat_toNat, BitVec.setWidth_eq]
    rfl
  · have hempty : s.faultRec = ⟨.none, 0, 0, 0⟩ := by
      rw [FaultRecord.Consistent, hkind.1 hs] at hrec
      exact hrec
    rw [State.faultPort, hempty]
    rfl
  · refine mt FaultKind.code_eq_zero_iff.1 fun hnone => ?_
    nomatch hs.symm.trans (hkind.2 hnone)

end Sys2Proof.Machine
